-- ==== Sys2Proof/Word.lean ====
section
/-! DEFINITION. The bit vectors of the block (00_scope.md R5, R6): register words, bus bytes and command words. -/

namespace Sys2Proof

/-- A sensor register word, `WORD_W` = 16 bits (R5); also the block's `word` and `dec` ports (R14). -/
abbrev Word := BitVec 16

/-- One byte on the bus (20_memory.md R27). -/
abbrev Byte := BitVec 8

/-- A command word, `CMD_W` = 32 bits (R5, 30_encoding.md R37). -/
abbrev Command := BitVec 32

end Sys2Proof
end

