-- ==== Sys2Proof/Syntax.lean ====
section
/-! DEFINITION. The seven commands of the block (30_encoding.md R39), with the operand fields each one uses (R42), and
the assembler's source lines (R48, R49). -/

namespace Sys2Proof

/-- The resolution modes (10_state.md R22). All four codes of the two-bit field are modes, so an invalid mode has no
value of this type (30_encoding.md R41). -/
inductive ResMode where
  | min
  | low
  | avg
  | max
deriving DecidableEq, Repr

/-- One legal command. A constructor carries the operand fields its operation uses; those it ignores (R42) are not
part of it. Flags are booleans, 1 being true (R40); `l` is the command field `L` (the alert selector). -/
inductive Instr where
  | decodeTemp (d : Word)
  | unpackCfg (d : Word)
  | packCfg (d : Word) (s e m p l : Bool) (r : ResMode)
  | enterShdn (d : Word)
  | exitShdn (d : Word)
  | setRes (d : Word) (r : ResMode)
  | setAlert (d : Word) (e m p l : Bool)
deriving DecidableEq, Repr

/-- One line of assembly (R48), operands as the numbers written; `decodeBytes` is the one pseudo-instruction (R49). -/
inductive AsmLine where
  | decodeTemp (d : Nat)
  | unpackCfg (d : Nat)
  | packCfg (d s e m p l res : Nat)
  | enterShdn (d : Nat)
  | exitShdn (d : Nat)
  | setRes (d res : Nat)
  | setAlert (d e m p l : Nat)
  | decodeBytes (b0 b1 : Nat)
deriving DecidableEq, Repr

end Sys2Proof
end

