-- ==== Sys2Proof/WellFormed.lean ====
section
/-! DEFINITION. What may be written down and presented. An `Instr` needs no check: its types admit only what the
encoding admits (30_encoding.md R41). A command word is well formed when it lies in a row of the opcode table (R45),
and a source line when its operands are in range (R48). -/

namespace Sys2Proof

/-- The bits that select the operation (R45): `X` and `OP`. -/
def opcodeMask : Command := 0xFC070000#32

/-- R45: `cmd & 0xFC070000 == OP << 16` for some `OP` in 0..6, the rows of the opcode table. -/
def Command.wellFormed (cmd : Command) : Bool :=
  (List.range 7).any fun op => cmd &&& opcodeMask == BitVec.ofNat 32 op <<< 16

/-- `d16` is a 16-bit number (R48). -/
def AsmLine.d16 (n : Nat) : Bool := decide (n < 65536)

/-- A flag is `0` or `1` (R48). -/
def AsmLine.flag (n : Nat) : Bool := decide (n < 2)

/-- A resolution operand is a code 0 to 3, or a mode's name standing for it (R48). -/
def AsmLine.res (n : Nat) : Bool := decide (n < 4)

/-- A byte in bus order (R49). -/
def AsmLine.byte (n : Nat) : Bool := decide (n < 256)

/-- Every operand of the line is in the range its field admits (R48, R49). -/
def AsmLine.wellFormed : AsmLine → Bool
  | .decodeTemp d | .unpackCfg d | .enterShdn d | .exitShdn d => d16 d
  | .packCfg d s e m p l r => d16 d && flag s && flag e && flag m && flag p && flag l && res r
  | .setRes d r => d16 d && res r
  | .setAlert d e m p l => d16 d && flag e && flag m && flag p && flag l
  | .decodeBytes b0 b1 => byte b0 && byte b1

end Sys2Proof
end

