-- ==== Sys2Proof/Decode.lean ====
section
/-! DEFINITION. The command encoding (30_encoding.md): the fields of a command word (R37), the total decoder (R45), and
the encoder written from the same table (R37, R39, R48). -/

namespace Sys2Proof

/-! ### The resolution codes (10_state.md R22) -/

/-- The two `RES` bits of a mode (R22). -/
def ResMode.code : ResMode → BitVec 2
  | .min => 0
  | .low => 1
  | .avg => 2
  | .max => 3

/-- The mode a two-bit code names: every code names one (R22, R41). -/
def ResMode.ofCode (c : BitVec 2) : ResMode :=
  if c = 0 then .min else if c = 1 then .low else if c = 2 then .avg else .max

/-! ### The fields of a command word (R37) -/

/-- `X`, bits 31:26, reserved. -/
def Command.x (cmd : Command) : BitVec 6 := cmd.extractLsb' 26 6
/-- `R`, bits 25:24. -/
def Command.r (cmd : Command) : BitVec 2 := cmd.extractLsb' 24 2
/-- `L`, bit 23, the alert selector flag. -/
def Command.l (cmd : Command) : Bool := cmd.getLsbD 23
/-- `P`, bit 22. -/
def Command.p (cmd : Command) : Bool := cmd.getLsbD 22
/-- `M`, bit 21. -/
def Command.m (cmd : Command) : Bool := cmd.getLsbD 21
/-- `E`, bit 20. -/
def Command.e (cmd : Command) : Bool := cmd.getLsbD 20
/-- `S`, bit 19. -/
def Command.s (cmd : Command) : Bool := cmd.getLsbD 19
/-- `OP`, bits 18:16. -/
def Command.op (cmd : Command) : BitVec 3 := cmd.extractLsb' 16 3
/-- `D`, bits 15:0, taken bit for bit (R38). -/
def Command.d (cmd : Command) : Word := cmd.extractLsb' 0 16

/-! ### Decoding -/

/-- What a command word selects (R45): one of the seven operations, or the illegal command, which keeps the whole word
(60_exceptions.md R69). -/
inductive Decoded where
  | legal (i : Instr)
  | illegalCommand (cmd : Command)
deriving DecidableEq, Repr

/-- R39: the operation of an `OP` code with the operand fields it uses (R42); `OP` = 7 is illegal (R44). -/
def decodeOp (cmd : Command) : Decoded :=
  if cmd.op = 0 then .legal (.decodeTemp cmd.d)
  else if cmd.op = 1 then .legal (.unpackCfg cmd.d)
  else if cmd.op = 2 then
    .legal (.packCfg cmd.d cmd.s cmd.e cmd.m cmd.p cmd.l (ResMode.ofCode cmd.r))
  else if cmd.op = 3 then .legal (.enterShdn cmd.d)
  else if cmd.op = 4 then .legal (.exitShdn cmd.d)
  else if cmd.op = 5 then .legal (.setRes cmd.d (ResMode.ofCode cmd.r))
  else if cmd.op = 6 then .legal (.setAlert cmd.d cmd.e cmd.m cmd.p cmd.l)
  else .illegalCommand cmd

/-- R45: decoding is total; `X` other than 0 is illegal whatever `OP` is (R43). -/
def decode (cmd : Command) : Decoded :=
  if cmd.x = 0 then decodeOp cmd else .illegalCommand cmd

/-- The `OP` code of a command (R39). -/
def opOf : Instr → BitVec 3
  | .decodeTemp _ => 0
  | .unpackCfg _ => 1
  | .packCfg .. => 2
  | .enterShdn _ => 3
  | .exitShdn _ => 4
  | .setRes .. => 5
  | .setAlert .. => 6

/-! ### Encoding -/

/-- A command word laid out by R37, `X` = 0, from its fields (high bits first). -/
def commandOf (r : BitVec 2) (l p m e s : Bool) (op : BitVec 3) (d : Word) : Command :=
  0#6 ++ r ++ BitVec.ofBool l ++ BitVec.ofBool p ++ BitVec.ofBool m ++ BitVec.ofBool e ++ BitVec.ofBool s ++ op ++ d

/-- The word the assembler makes of a command: every field its line does not name is 0 (R48). -/
def encode : Instr → Command
  | .decodeTemp d => commandOf 0 false false false false false 0 d
  | .unpackCfg d => commandOf 0 false false false false false 1 d
  | .packCfg d s e m p l r => commandOf r.code l p m e s 2 d
  | .enterShdn d => commandOf 0 false false false false false 3 d
  | .exitShdn d => commandOf 0 false false false false false 4 d
  | .setRes d r => commandOf r.code false false false false false 5 d
  | .setAlert d e m p l => commandOf 0 l p m e false 6 d

/-! ### Words of the opcode table -/

/-- The command word whose low `nbits` bits are those of `w`, the bits above them 0 (every command is 32 bits, R46). -/
def tableWord (nbits w : Nat) : Command := BitVec.ofNat 32 (w % 2 ^ nbits)

/-- What the decoder reads from that word; nothing for an illegal command. -/
def decodeTableWord (nbits w : Nat) : Option Instr :=
  match decode (tableWord nbits w) with
  | .legal i => some i
  | .illegalCommand _ => none

end Sys2Proof
end

