-- ==== Sys2Proof/Machine/Operands.lean ====
section
/-! DEFINITION. The operand forms: the data word as two bus bytes (20_memory.md R27, R29), the fields of a temperature
word (10_state.md R16, 40_temperature_decode.md R50), and the data word of a command (30_encoding.md R38). -/

namespace Sys2Proof.Machine

/-- R27: two bytes in bus order, most significant first, are the operand `b0 ++ b1`; a byte string of any other length
is no operand (R29). -/
def operandOfBytes : List Byte → Option Word
  | [b0, b1] => some (b0 ++ b1)
  | _ => none

/-- R27: a result word goes out as `W[15:8]`, then `W[7:0]`. -/
def bytesOfWord (w : Word) : List Byte :=
  [w.extractLsb' 8 8, w.extractLsb' 0 8]

/-- `TS`, the sign bit, bit 12 of the word (R16, R50): 1 means negative. -/
def tempSign (d : Word) : Bool := d.getLsbD 12

/-- `TM`, the magnitude, bits 11:0, an unsigned count of sixteenths of a degree (R16, R50). -/
def tempMagnitude (d : Word) : BitVec 12 := d.extractLsb' 0 12

/-- `ip = tm >> 4`, the whole degrees of the magnitude, 8 bits (R50). -/
def tempDegrees (d : Word) : BitVec 8 := (tempMagnitude d >>> 4).setWidth 8

/-- `fp = tm & 0xF`, the sixteenths of the magnitude, 4 bits (R50). -/
def tempSixteenths (d : Word) : BitVec 4 := (tempMagnitude d &&& 0xF#12).setWidth 4

/-- The data word `D` of a command (R38). -/
def dataOf : Instr → Word
  | .decodeTemp d | .unpackCfg d | .packCfg d _ _ _ _ _ _ | .enterShdn d | .exitShdn d | .setRes d _
  | .setAlert d _ _ _ _ => d

end Sys2Proof.Machine
end

