-- ==== Sys2Proof/Config.lean ====
section
/-! DEFINITION. What an implementation fixes: the configuration word's layout (10_state.md R18, R19), the sensor's
register map (20_memory.md R26), and the power-on draws the spec leaves open (R24; D19, D20). -/

namespace Sys2Proof

/-- Six bit positions in a configuration word: the five flags, and the lower bit of the two-bit resolution field (R18). -/
structure Positions where
  shdn : Fin 16
  aen  : Fin 16
  amod : Fin 16
  apol : Fin 16
  asel : Fin 16
  res  : Fin 16
deriving DecidableEq, Repr, Inhabited

/-- The seven bit indices a layout occupies (R18). -/
def Positions.bits (p : Positions) : List Nat :=
  [p.shdn.val, p.aen.val, p.amod.val, p.apol.val, p.asel.val, p.res.val, p.res.val + 1]

/-- R18: the seven bit indices are pairwise distinct, and `res <= 14`. -/
def Positions.legal (p : Positions) : Bool :=
  decide (p.res.val ≤ 14) && decide p.bits.Nodup

/-- The layout parameter `L : CfgLayout`: six positions with the proof that they are legal (R18). The block is defined
only for a legal layout, so there is no value of this type for an illegal one. -/
structure CfgLayout where
  pos   : Positions
  legal : pos.legal = true := by decide
deriving DecidableEq, Repr

/-- `LAYOUT_DEFAULT` (R19): AMOD 0, APOL 1, ASEL 2, AEN 3, SHDN 8, RES 12:11. -/
def layoutDefault : CfgLayout where
  pos := { shdn := 8, aen := 3, amod := 0, apol := 1, asel := 2, res := 11 }

/-- The sensor registers the source names (R26): temperature, configuration, resolution ("or dedicated resolution"),
upper boundary and lower boundary. -/
inductive SensorReg where
  | temperature
  | configuration
  | resolution
  | upperBoundary
  | lowerBoundary
deriving DecidableEq, Repr, Inhabited

/-- Every register name, once. -/
def SensorReg.all : List SensorReg :=
  [.temperature, .configuration, .resolution, .upperBoundary, .lowerBoundary]

/-- The register map, a parameter of a model of the host (R26): the sensor's device address, and which register each
register address names. The spec gives no address and no width of one. -/
structure RegisterMap where
  device    : Nat
  registers : List (Nat × SensorReg)
deriving DecidableEq, Repr, Inhabited

/-- FREE VALUE. `CFG_RESET_OTHER` (R24, D19): the configuration word's power-on bits other than RES, under no law. -/
opaque Config.cfgResetOther : Word

/-- FREE VALUE. `TEMP_RESET` (R24, D20): the power-on word of each register in the temperature format, under no law. -/
opaque Config.tempReset : SensorReg → Word

/-- FREE VALUE, DESIGN CHOICE (log entry 4): the power-on word of a dedicated resolution register, of which the spec
gives no word. -/
opaque Config.resolutionReset : Word

/-- FREE VALUE, DESIGN CHOICE (log entry 2): the register map of the sensor at hand, of which the spec gives no address
(R26). -/
opaque Config.registerMap : RegisterMap

end Sys2Proof
end

