-- ==== Sys2Proof/Machine/Flags.lean ====
section
/-! DEFINITION. The configuration word's fields: masks (10_state.md R20) and accessors (41_config_pack.md R58), for a
legal layout. The block has no status flags of its own (R12). -/

namespace Sys2Proof.Machine

/-- `1 << pos`. -/
def bitMask (pos : Fin 16) : Word := 1#16 <<< pos.val

/-- `M_SHDN` (R20). -/
def mShdn (L : CfgLayout) : Word := bitMask L.pos.shdn

/-- `M_ALERT` (R20). -/
def mAlert (L : CfgLayout) : Word :=
  bitMask L.pos.aen ||| bitMask L.pos.amod ||| bitMask L.pos.apol ||| bitMask L.pos.asel

/-- `M_RES` (R20). -/
def mRes (L : CfgLayout) : Word := 3#16 <<< L.pos.res.val

/-- `FIELD_MASK` (R20). -/
def fieldMask (L : CfgLayout) : Word := mShdn L ||| mAlert L ||| mRes L

/-- `zext_16(b) << pos`: a flag moved to its position (R58). -/
def flagAt (pos : Fin 16) (b : Bool) : Word := (BitVec.ofBool b).setWidth 16 <<< pos.val

/-- `zext_16(r) << L.res`: a resolution code moved to its position (R58). -/
def resAt (L : CfgLayout) (r : BitVec 2) : Word := r.setWidth 16 <<< L.pos.res.val

/-- `get1(W, pos)` (R58). -/
def get1 (w : Word) (pos : Fin 16) : Bool := w.getLsbD pos.val

/-- `getres(W)` (R58). -/
def getRes (L : CfgLayout) (w : Word) : BitVec 2 := w.extractLsb' L.pos.res.val 2

/-- `put1(W, pos, b)` (R58). -/
def put1 (w : Word) (pos : Fin 16) (b : Bool) : Word := (w &&& ~~~ bitMask pos) ||| flagAt pos b

/-- `putres(W, r)` (R58). -/
def putRes (L : CfgLayout) (w : Word) (r : BitVec 2) : Word := (w &&& ~~~ mRes L) ||| resAt L r

/-- Does the operation write a configuration word (R65)? -/
def writesConfig : Instr → Bool
  | .decodeTemp _ | .unpackCfg _ => false
  | .packCfg .. | .enterShdn _ | .exitShdn _ | .setRes .. | .setAlert .. => true

/-- `F(op)`, the mask of the field an operation writes (R65); the two reading operations write none. -/
def writtenMask (L : CfgLayout) : Instr → Word
  | .decodeTemp _ | .unpackCfg _ => 0
  | .packCfg .. => fieldMask L
  | .enterShdn _ | .exitShdn _ => mShdn L
  | .setRes .. => mRes L
  | .setAlert .. => mAlert L

end Sys2Proof.Machine
end

