-- ==== Sys2Proof/Machine/State.lean ====
section
/-! DEFINITION. The state of the model: the block's ports (10_state.md R13, R14), its parameters (R18, 20_memory.md R26),
and the system round the block: the sensor's registers with their reset table (R24), what the host has read, and the
moves to come (R96, D27). The block itself holds no state (R9). -/

namespace Sys2Proof.Machine

/-- The output ports (R14). A one-bit port is a Bool, 1 being true; `r` is the resolution code (R22). -/
structure Ports where
  ok   : Bool
  word : Word
  neg  : Bool
  dec  : Word
  frac : BitVec 4
  s    : Bool
  e    : Bool
  m    : Bool
  p    : Bool
  l    : Bool
  r    : BitVec 2
deriving DecidableEq, Repr

/-- One value for each sensor register the source names (R26). -/
structure PerReg (α : Type) where
  temperature   : α
  configuration : α
  resolution    : α
  upperBoundary : α
  lowerBoundary : α
deriving DecidableEq, Repr

/-- A word the host has read from a register (R87), and whether it is the word just read (R88): no write to that register,
no attempt of the host's at one, and no new conversion into it has come since (log entry 13). -/
structure Held where
  word  : Word
  fresh : Bool
deriving DecidableEq, Repr

/-- What the transport gives back for a read: it failed, or that many bytes (R29, R90). -/
inductive ReadReply where
  | bytes (count : Nat)
  | failed
deriving DecidableEq, Repr

/-- One move of the system round the block (R95, D27).
`command`: the host presents a command word (R13).
`read`, `write`: the host uses the transport (R26); the reply says how the access ended, `done` whether a write
succeeded (R90).
`otherWrite`: another agent writes a register (R89).
`converts`: the sensor puts a new word into the temperature register, whatever its mode (R93). -/
inductive HostMove where
  | command (cmd : Command)
  | read (device register : Nat) (reply : ReadReply)
  | write (device register : Nat) (bytes : List Byte) (done : Bool)
  | otherWrite (register : SensorReg) (w : Word)
  | converts (w : Word)
deriving DecidableEq, Repr

/-- The machine.
`layout`, `map`: the parameters of R18 and R26, which no step changes.
`cmd`: the word on the input port (R13), none before the first.
`out`: the result on the output ports (R14), none before the first command (R24).
`sensor`: the sensor's registers (R16, R17, R24).
`held`: the words the host has read (R87, R88).
`busError`: the last transport access failed (R90).
`pending`: the moves to come, in order (R11, R96). -/
structure State where
  layout   : CfgLayout
  map      : RegisterMap
  cmd      : Option Command
  out      : Option Ports
  sensor   : PerReg Word
  held     : PerReg (Option Held)
  busError : Bool
  pending  : List HostMove
deriving DecidableEq, Repr

/-- The faults of the block (60_exceptions.md R70). -/
inductive Fault where
  /-- Code 1. Raised by `presentCommand` for a word with `X` other than 0 or `OP` = 7 (R69); it carries the word. Safe:
  the spec itself gives the fault. -/
  | illegalCommand (cmd : Command)
deriving DecidableEq, Repr

/-- Why a step has no next state. -/
inductive Refusal where
  /-- An arm of `exec` with no meaning yet. Safe. No arm answers with it. -/
  | notModelled (mnemonic : String)
  /-- Raised by `step`: no move is pending, the run has ended (70_reset_and_hazards.md R96). Safe. -/
  | nothingPresented
  /-- Raised by `readRegister`: the transport failed, the host has no operand and sees BusError (R90). Safe. -/
  | readFailed
  /-- Raised by `readRegister`: the reply is not two bytes, so it is no operand (20_memory.md R29). Safe. -/
  | readNotTwoBytes
  /-- Raised by `writeRegister`: the bytes are not one register word (R29, D17). Safe. -/
  | writeNotTwoBytes
  /-- Raised by `readRegister` and `writeRegister`: the register map names no register there (R26). Safe. -/
  | unmappedRegister
deriving DecidableEq, Repr

/-- Power-on (R24, R85, R86): nothing presented and no result; RES of the configuration word is MAX (`11`) and every
other bit of it is the draw `CFG_RESET_OTHER`; the temperature-format words are the draws `TEMP_RESET`. The layout is
`LAYOUT_DEFAULT` (R19). -/
def State.reset : State where
  layout   := layoutDefault
  map      := Config.registerMap
  cmd      := none
  out      := none
  sensor   :=
    { temperature   := Config.tempReset .temperature
      configuration := putRes layoutDefault Config.cfgResetOther 3#2
      resolution    := Config.resolutionReset
      upperBoundary := Config.tempReset .upperBoundary
      lowerBoundary := Config.tempReset .lowerBoundary }
  held     := ⟨none, none, none, none, none⟩
  busError := false
  pending  := []

end Sys2Proof.Machine
end

