-- ==== Sys2Proof/Machine/Ops.lean ====
section
/-! DEFINITION. The operations the meanings and the host's moves share: driving the ports (10_state.md R14, R15), raising
IllegalCommand (60_exceptions.md R69, R70), and reading and writing the sensor's registers (20_memory.md R26). -/

namespace Sys2Proof.Machine

/-! ### The output ports -/

/-- Every port 0 (R15): what an illegal command drives, and what a legal one drives on the ports its rule leaves out. -/
def portsZero : Ports where
  ok := false
  word := 0
  neg := false
  dec := 0
  frac := 0
  s := false
  e := false
  m := false
  p := false
  l := false
  r := 0

/-- The ports of an operation whose result is a configuration word; all others 0 (R15). -/
def portsWord (w : Word) : Ports := { portsZero with ok := true, word := w }

/-- Drives the output ports and nothing else (R31). -/
def driveOutputs (p : Ports) (s : State) : State := { s with out := some p }

/-- The word stands on the input port (R13). -/
def latchCommand (cmd : Command) (s : State) : State := { s with cmd := some cmd }

/-- The end of a legal command: its result is on the ports (R30, R31). -/
def complete (p : Ports) (s : State) : Host.Outcome State Fault Refusal := .next (driveOutputs p s)

/-! ### The one exception -/

/-- R69: the fault outcome, carrying the 32 bits. Nothing is saved, no mode changes, control goes nowhere (R74). -/
def raiseIllegalCommand (cmd : Command) : Host.Outcome State Fault Refusal := .fault (.illegalCommand cmd)

/-- R69, R75: what the host finds that goes on after an illegal command: `ok` and every other port 0, nothing else
touched. -/
def afterIllegalCommand (cmd : Command) (s : State) : State :=
  driveOutputs portsZero (latchCommand cmd s)

/-- R70: the code of a fault. -/
def causeCode : Fault → Nat
  | .illegalCommand _ => 1

/-- R70: the code of a command word's outcome, 0 for a legal command. -/
def commandCode (cmd : Command) : Nat :=
  match decode cmd with
  | .legal _ => 0
  | .illegalCommand c => causeCode (.illegalCommand c)

/-! ### The sensor's registers -/

/-- The value of one register. -/
def regGet {α : Type} (v : PerReg α) : SensorReg → α
  | .temperature => v.temperature
  | .configuration => v.configuration
  | .resolution => v.resolution
  | .upperBoundary => v.upperBoundary
  | .lowerBoundary => v.lowerBoundary

/-- The value of one register replaced. -/
def regSet {α : Type} (v : PerReg α) (n : SensorReg) (x : α) : PerReg α :=
  match n with
  | .temperature => { v with temperature := x }
  | .configuration => { v with configuration := x }
  | .resolution => { v with resolution := x }
  | .upperBoundary => { v with upperBoundary := x }
  | .lowerBoundary => { v with lowerBoundary := x }

/-- The register at a device address and register address, by the register map (R26). -/
def resolve (m : RegisterMap) (device register : Nat) : Option SensorReg :=
  if device = m.device then m.registers.lookup register else none

/-- The host has read `w` from `n` (R87). -/
def holdWord (n : SensorReg) (w : Word) (s : State) : State :=
  { s with held := regSet s.held n (some { word := w, fresh := true }) }

/-- The host has no word of `n` to build a command from (R90). -/
def dropHeld (n : SensorReg) (s : State) : State :=
  { s with held := regSet s.held n none }

/-- A word that a write has used up or overtaken (R88). -/
def Held.stale (h : Held) : Held := { h with fresh := false }

/-- The word the host has read from `n` is no longer one it has just read (R88): a write to `n` has come, or the host has
used the read up in a write that failed (R90, R95; DEDUCED, log entries 12 and 13). -/
def overtakeRead (n : SensorReg) (s : State) : State :=
  { s with held := regSet s.held n ((regGet s.held n).map Held.stale) }

/-- Register `n` takes the word `w`, whoever writes it; a word the host has read from `n` is overtaken (R88, R89). -/
def storeRegister (n : SensorReg) (w : Word) (s : State) : State :=
  overtakeRead n { s with sensor := regSet s.sensor n w }

/-- How the last transport access ended, as the host sees it (R90). -/
def setBusError (b : Bool) (s : State) : State := { s with busError := b }

end Sys2Proof.Machine
end

