-- ==== Sys2Proof/Machine/ConfigPack.lean ====
section
/-! DEFINITION. The configuration and resolution packer (41_config_pack.md): UNPACK_CFG (R59), PACK_CFG (R60), ENTER_SHDN
(R61), EXIT_SHDN (R62), SET_RES (R63) and SET_ALERT (R64), for every legal layout. -/

namespace Sys2Proof.Machine

/-! ### UNPACK_CFG -/

/-- The ports of UNPACK_CFG (R59). -/
def unpackCfgPorts (L : CfgLayout) (d : Word) : Ports :=
  { portsZero with
    ok := true
    s := get1 d L.pos.shdn
    e := get1 d L.pos.aen
    m := get1 d L.pos.amod
    p := get1 d L.pos.apol
    l := get1 d L.pos.asel
    r := getRes L d }

/-- UNPACK_CFG (R59). -/
def execUnpackCfg (d : Word) (s : State) : Host.Outcome State Fault Refusal :=
  complete (unpackCfgPorts s.layout d) s

/-! ### PACK_CFG -/

/-- The word of PACK_CFG (R60): all seven field bits written, the preserved bits of `d` kept. -/
def packCfgWord (L : CfgLayout) (d : Word) (s e m p l : Bool) (r : ResMode) : Word :=
  (d &&& ~~~ fieldMask L) ||| flagAt L.pos.shdn s ||| flagAt L.pos.aen e ||| flagAt L.pos.amod m
    ||| flagAt L.pos.apol p ||| flagAt L.pos.asel l ||| resAt L r.code

/-- PACK_CFG (R60); `sh` is the command field `S`. -/
def execPackCfg (d : Word) (sh e m p l : Bool) (r : ResMode) (s : State) : Host.Outcome State Fault Refusal :=
  complete (portsWord (packCfgWord s.layout d sh e m p l r)) s

/-! ### ENTER_SHDN and EXIT_SHDN -/

/-- The word of ENTER_SHDN (R61): the shutdown bit set. -/
def enterShdnWord (L : CfgLayout) (d : Word) : Word := put1 d L.pos.shdn true

/-- ENTER_SHDN (R61). -/
def execEnterShdn (d : Word) (s : State) : Host.Outcome State Fault Refusal :=
  complete (portsWord (enterShdnWord s.layout d)) s

/-- The word of EXIT_SHDN (R62): the shutdown bit cleared. -/
def exitShdnWord (L : CfgLayout) (d : Word) : Word := put1 d L.pos.shdn false

/-- EXIT_SHDN (R62). -/
def execExitShdn (d : Word) (s : State) : Host.Outcome State Fault Refusal :=
  complete (portsWord (exitShdnWord s.layout d)) s

/-! ### SET_RES -/

/-- The word of SET_RES (R63): the resolution code written. -/
def setResWord (L : CfgLayout) (d : Word) (r : ResMode) : Word := putRes L d r.code

/-- SET_RES (R63). -/
def execSetRes (d : Word) (r : ResMode) (s : State) : Host.Outcome State Fault Refusal :=
  complete (portsWord (setResWord s.layout d r)) s

/-! ### SET_ALERT -/

/-- The word of SET_ALERT (R64): the four alert flags written. -/
def setAlertWord (L : CfgLayout) (d : Word) (e m p l : Bool) : Word :=
  (d &&& ~~~ mAlert L) ||| flagAt L.pos.aen e ||| flagAt L.pos.amod m ||| flagAt L.pos.apol p
    ||| flagAt L.pos.asel l

/-- SET_ALERT (R64). -/
def execSetAlert (d : Word) (e m p l : Bool) (s : State) : Host.Outcome State Fault Refusal :=
  complete (portsWord (setAlertWord s.layout d e m p l)) s

end Sys2Proof.Machine
end

