-- ==== Sys2Proof/Machine/Temperature.lean ====
section
/-! DEFINITION. The temperature decoder (40_temperature_decode.md): DECODE_TEMP (R51) and the value a temperature word
stands for (R52). -/

namespace Sys2Proof.Machine

/-- The ports of DECODE_TEMP (R51): `neg` copies the sign bit, not normalised for magnitude 0 (R55); `dec` is the whole
degrees, negated mod 2^16 when the sign is set; `frac` is the sixteenths. -/
def decodeTempPorts (d : Word) : Ports :=
  { portsZero with
    ok := true
    neg := tempSign d
    dec := if tempSign d then - (tempDegrees d).setWidth 16 else (tempDegrees d).setWidth 16
    frac := tempSixteenths d }

/-- DECODE_TEMP (R51). -/
def execDecodeTemp (d : Word) (s : State) : Host.Outcome State Fault Refusal :=
  complete (decodeTempPorts d) s

/-- R8: the two's-complement signed value of a 16-bit word. -/
def sv (w : Word) : Int := if w.getLsbD 15 then (w.toNat : Int) - 65536 else w.toNat

/-- The sign of R52: -1 when the bit is 1, else +1. -/
def signOf (neg : Bool) : Rat := if neg then -1 else 1

/-- R52: the exact rational a temperature word stands for, in degrees Celsius. -/
def tempValue (d : Word) : Rat := signOf (tempSign d) * ((tempMagnitude d).toNat : Rat) / 16

end Sys2Proof.Machine
end

