-- ==== Sys2Proof/Machine/Dispatch.lean ====
section
/-! DEFINITION. One arm per command of the opcode table (30_encoding.md R39), each a direct call of its meaning. -/

namespace Sys2Proof.Machine

def exec (i : Instr) (s : State) : Host.Outcome State Fault Refusal :=
  match i with
  | .decodeTemp d => Sys2Proof.Machine.execDecodeTemp d s
  | .unpackCfg d => Sys2Proof.Machine.execUnpackCfg d s
  | .packCfg d sh e m p l r => Sys2Proof.Machine.execPackCfg d sh e m p l r s
  | .enterShdn d => Sys2Proof.Machine.execEnterShdn d s
  | .exitShdn d => Sys2Proof.Machine.execExitShdn d s
  | .setRes d r => Sys2Proof.Machine.execSetRes d r s
  | .setAlert d e m p l => Sys2Proof.Machine.execSetAlert d e m p l s

end Sys2Proof.Machine
end

