-- ==== Sys2Proof/Machine/HostMoves.lean ====
section
/-! DEFINITION. What each move of the host, of another agent and of the sensor does (20_memory.md R26 to R31;
70_reset_and_hazards.md R88 to R95). -/

namespace Sys2Proof.Machine

/-- The registers whose word an operation takes as its `D` (R38): DECODE_TEMP a register in the temperature format (R16,
R95), every other operation the configuration register (R17, R87). UNPACK_CFG and SET_RES may take the word of a dedicated
resolution register as well (90_conflicts.md C4; log entries 4 and 17). -/
def takesWordOf (i : Instr) (n : SensorReg) : Bool :=
  match i with
  | .decodeTemp _ => n == .temperature || n == .upperBoundary || n == .lowerBoundary
  | .unpackCfg _ | .setRes _ _ => n == .configuration || n == .resolution
  | .packCfg _ _ _ _ _ _ _ | .enterShdn _ | .exitShdn _ | .setAlert _ _ _ _ _ => n == .configuration

/-- The host presents a command word on the input port (R13): it is decoded and evaluated in one atomic step (R30), or
raises IllegalCommand (R69). -/
def presentCommand (cmd : Command) (s : State) : Host.Outcome State Fault Refusal :=
  match decode cmd with
  | .legal i => exec i (latchCommand cmd s)
  | .illegalCommand c => raiseIllegalCommand c

/-- The bytes of register `n` as the transport carries them, and the operand the host forms of them (R27): the host now
holds the register's word. -/
def receiveWord (n : SensorReg) (s : State) : Host.Outcome State Fault Refusal :=
  match operandOfBytes (bytesOfWord (regGet s.sensor n)) with
  | some w => .next (setBusError false (holdWord n w s))
  | none => .refused .readNotTwoBytes

/-- `read_register` (R26): a failed read gives the host no operand (R90), and a reply of other than two bytes is none
(R29). It works in shutdown as well (R94). -/
def readRegister (device register : Nat) (reply : ReadReply) (s : State) : Host.Outcome State Fault Refusal :=
  match resolve s.map device register with
  | none => .refused .unmappedRegister
  | some n =>
    match reply with
    | .failed => .refused .readFailed
    | .bytes count => if count = 2 then receiveWord n s else .refused .readNotTwoBytes

/-- `write_register` (R26): two bytes, most significant first (R27). A failed write leaves the register as it was, and
the host sees BusError (R90); it has used up the host's one read all the same (R95; DEDUCED, log entry 12). -/
def writeRegister (device register : Nat) (bytes : List Byte) (done : Bool) (s : State) :
    Host.Outcome State Fault Refusal :=
  match resolve s.map device register with
  | none => .refused .unmappedRegister
  | some n =>
    match operandOfBytes bytes with
    | none => .refused .writeNotTwoBytes
    | some w =>
      if done then .next (setBusError false (storeRegister n w s)) else .next (setBusError true (overtakeRead n s))

/-- Another agent's write to a register (R89). -/
def otherAgentWrites (n : SensorReg) (w : Word) (s : State) : Host.Outcome State Fault Refusal :=
  .next (storeRegister n w s)

/-- The sensor puts a new word into its temperature register; the spec gives no law of the word (R93). -/
def sensorConverts (w : Word) (s : State) : Host.Outcome State Fault Refusal :=
  .next (storeRegister .temperature w s)

/-- One move. -/
def perform (m : HostMove) (s : State) : Host.Outcome State Fault Refusal :=
  match m with
  | .command cmd => presentCommand cmd s
  | .read device register reply => readRegister device register reply s
  | .write device register bytes done => writeRegister device register bytes done s
  | .otherWrite n w => otherAgentWrites n w s
  | .converts w => sensorConverts w s

/-- The machine a host goes on with after a move that stopped. After an illegal command the ports are 0 and nothing else
changed (R69, R75). After a failed read the host has no operand and sees BusError (R90); after a reply of another length
it has no operand (R29). A write that was not formed, or an access no register answers, changes nothing. -/
def afterStop (m : HostMove) (s : State) : State :=
  match m with
  | .command cmd => afterIllegalCommand cmd s
  | .read device register reply =>
    match resolve s.map device register with
    | none => s
    | some n =>
      match reply with
      | .failed => setBusError true (dropHeld n s)
      | .bytes _ => dropHeld n s
  | .write .. | .otherWrite .. | .converts _ => s

end Sys2Proof.Machine
end

