-- ==== Sys2Proof/Machine/Step.lean ====
section
/-! DEFINITION. One step: the next pending move (10_state.md R11, 70_reset_and_hazards.md R96). -/

namespace Sys2Proof.Machine

/-- The next move of the run; a run ends when none is pending (R96). -/
def step (s : State) : Host.Outcome State Fault Refusal :=
  match s.pending with
  | [] => .refused .nothingPresented
  | m :: rest => perform m { s with pending := rest }

/-- `s` with the given command word presented next: it stands for the host that presents it (R13). -/
def State.withFetchWord (s : State) (nbits w : Nat) : State :=
  { s with pending := .command (tableWord nbits w) :: s.pending }

end Sys2Proof.Machine
end

