-- ==== Sys2Proof/Machine/Asm.lean ====
section
/-! DEFINITION. The assembler (30_encoding.md R48, R49): from a source line to a command word, and from text to a source
line. -/

namespace Sys2Proof.Machine

/-! ### From a line to a word -/

/-- The command a line stands for (R48); `DECODE_BYTES b0, b1` is `DECODE_TEMP ((b0 << 8) | b1)` (R49). -/
def instrOfLine : AsmLine → Instr
  | .decodeTemp d => .decodeTemp (BitVec.ofNat 16 d)
  | .unpackCfg d => .unpackCfg (BitVec.ofNat 16 d)
  | .packCfg d s e m p l r =>
    .packCfg (BitVec.ofNat 16 d) (s == 1) (e == 1) (m == 1) (p == 1) (l == 1) (ResMode.ofCode (BitVec.ofNat 2 r))
  | .enterShdn d => .enterShdn (BitVec.ofNat 16 d)
  | .exitShdn d => .exitShdn (BitVec.ofNat 16 d)
  | .setRes d r => .setRes (BitVec.ofNat 16 d) (ResMode.ofCode (BitVec.ofNat 2 r))
  | .setAlert d e m p l => .setAlert (BitVec.ofNat 16 d) (e == 1) (m == 1) (p == 1) (l == 1)
  | .decodeBytes b0 b1 => .decodeTemp (BitVec.ofNat 8 b0 ++ BitVec.ofNat 8 b1)

/-- The word of a line whose operands are in range; no word of another (R48). -/
def assemble (a : AsmLine) : Option Command :=
  if a.wellFormed then some (encode (instrOfLine a)) else none

/-! ### From text to a line -/

/-- Spaces and tabs separate (log entry 9). -/
def isBlank (c : Char) : Bool := c == ' ' || c == '\t'

/-- The text without blanks before and after it. -/
def trim (t : List Char) : List Char := ((t.dropWhile isBlank).reverse.dropWhile isBlank).reverse

/-- The text before the first `;`, which starts a comment (R48). -/
def withoutComment (t : List Char) : List Char := t.takeWhile (· != ';')

/-- The parts of a text between separators. -/
def splitOnChar (sep : Char) : List Char → List (List Char)
  | [] => [[]]
  | c :: cs =>
    if c = sep then [] :: splitOnChar sep cs
    else match splitOnChar sep cs with
      | [] => [[c]]
      | part :: parts => (c :: part) :: parts

/-- The value of a digit character, below 16. -/
def digitValue (c : Char) : Option Nat :=
  if '0' ≤ c ∧ c ≤ '9' then some (c.toNat - '0'.toNat)
  else if 'a' ≤ c ∧ c ≤ 'f' then some (c.toNat - 'a'.toNat + 10)
  else if 'A' ≤ c ∧ c ≤ 'F' then some (c.toNat - 'A'.toNat + 10)
  else none

/-- Digits in a base, most significant first, onto what stands before them. -/
def digitsFrom (base acc : Nat) : List Char → Option Nat
  | [] => some acc
  | c :: cs =>
    match digitValue c with
    | some v => if v < base then digitsFrom base (acc * base + v) cs else none
    | none => none

/-- A number: hexadecimal with `0x`, or decimal (R48). -/
def parseNumber : List Char → Option Nat
  | [] => none
  | '0' :: 'x' :: [] => none
  | '0' :: 'x' :: cs => digitsFrom 16 0 cs
  | cs => digitsFrom 10 0 cs

/-- A flag: `0` or `1` (R48). -/
def parseFlag (t : List Char) : Option Nat :=
  if t = ['0'] then some 0 else if t = ['1'] then some 1 else none

/-- A resolution operand: `MIN`, `LOW`, `AVG`, `MAX`, or its code `0` to `3` (R48). -/
def parseRes (t : List Char) : Option Nat :=
  if t = "MIN".toList ∨ t = ['0'] then some 0
  else if t = "LOW".toList ∨ t = ['1'] then some 1
  else if t = "AVG".toList ∨ t = ['2'] then some 2
  else if t = "MAX".toList ∨ t = ['3'] then some 3
  else none

/-- The operands after a mnemonic, split at commas; none where the text is blank. -/
def operandTexts (t : List Char) : List (List Char) :=
  if trim t = [] then [] else (splitOnChar ',' t).map trim

/-- The line a mnemonic and its operand texts make (R48, R49). DESIGN CHOICE (log entry 9): the bytes of DECODE_BYTES are
written like a `d16`, in hexadecimal with `0x` or in decimal; R49 only shows hexadecimal. -/
def lineOf (mnemonic : List Char) (ops : List (List Char)) : Option AsmLine :=
  if mnemonic = "DECODE_TEMP".toList then
    match ops with
    | [d] => (parseNumber d).map .decodeTemp
    | _ => none
  else if mnemonic = "UNPACK_CFG".toList then
    match ops with
    | [d] => (parseNumber d).map .unpackCfg
    | _ => none
  else if mnemonic = "PACK_CFG".toList then
    match ops with
    | [d, s, e, m, p, l, r] =>
      (parseNumber d).bind fun d => (parseFlag s).bind fun s => (parseFlag e).bind fun e =>
        (parseFlag m).bind fun m => (parseFlag p).bind fun p => (parseFlag l).bind fun l =>
          (parseRes r).map fun r => .packCfg d s e m p l r
    | _ => none
  else if mnemonic = "ENTER_SHDN".toList then
    match ops with
    | [d] => (parseNumber d).map .enterShdn
    | _ => none
  else if mnemonic = "EXIT_SHDN".toList then
    match ops with
    | [d] => (parseNumber d).map .exitShdn
    | _ => none
  else if mnemonic = "SET_RES".toList then
    match ops with
    | [d, r] => (parseNumber d).bind fun d => (parseRes r).map fun r => .setRes d r
    | _ => none
  else if mnemonic = "SET_ALERT".toList then
    match ops with
    | [d, e, m, p, l] =>
      (parseNumber d).bind fun d => (parseFlag e).bind fun e => (parseFlag m).bind fun m =>
        (parseFlag p).bind fun p => (parseFlag l).map fun l => .setAlert d e m p l
    | _ => none
  else if mnemonic = "DECODE_BYTES".toList then
    match ops with
    | [b0, b1] => (parseNumber b0).bind fun b0 => (parseNumber b1).map fun b1 => .decodeBytes b0 b1
    | _ => none
  else none

/-- One line of text as a source line (R48): the mnemonic, in any case, up to the first blank, then the operands. -/
def parseLine (t : List Char) : Option AsmLine :=
  let body := trim (withoutComment t)
  lineOf ((body.takeWhile (fun c => !isBlank c)).map Char.toUpper) (operandTexts (body.dropWhile (fun c => !isBlank c)))

/-- One line of text as a command word. -/
def assembleText (t : List Char) : Option Command := (parseLine t).bind assemble

/-- A source text, one command a line (R48): its command words in order, or nothing where a line is wrong. A line with
nothing but blanks and a comment makes no command (log entry 9). -/
def assembleSource (t : List Char) : Option (List Command) :=
  ((splitOnChar '\n' t).filter (fun line => trim (withoutComment line) != [])).mapM assembleText

end Sys2Proof.Machine
end

