-- ==== Sys2Proof/Machine/Session.lean ====
section
/-! DEFINITION. The result of a command word as a function of the word alone (10_state.md R9, 30_encoding.md R45), and a
whole run with its end state (70_reset_and_hazards.md R96). -/

namespace Sys2Proof.Machine

/-- The result of a legal command under a layout (R9). -/
def portsOf (L : CfgLayout) : Instr → Ports
  | .decodeTemp d => decodeTempPorts d
  | .unpackCfg d => unpackCfgPorts L d
  | .packCfg d s e m p l r => portsWord (packCfgWord L d s e m p l r)
  | .enterShdn d => portsWord (enterShdnWord L d)
  | .exitShdn d => portsWord (exitShdnWord L d)
  | .setRes d r => portsWord (setResWord L d r)
  | .setAlert d e m p l => portsWord (setAlertWord L d e m p l)

/-- The values on the ports for any 32-bit word (R45): those of its operation, or all 0 for an illegal one (R69). -/
def evaluate (L : CfgLayout) (cmd : Command) : Ports :=
  match decode cmd with
  | .legal i => portsOf L i
  | .illegalCommand _ => portsZero

/-- One move of a host that goes on whatever the outcome (R75, R90). -/
def carryOn (m : HostMove) (s : State) : State :=
  match perform m s with
  | .next t => t
  | .fault _ => afterStop m s
  | .refused _ => afterStop m s

/-- The result a move adds to the run's list: one for each command (R96). -/
def resultOf (m : HostMove) (after : State) : List Ports :=
  match m with
  | .command _ => after.out.toList
  | .read .. | .write .. | .otherWrite .. | .converts _ => []

/-- A run of the given moves (R96): the list of results, one per command, and the machine they end in. -/
def runMoves : List HostMove → State → List Ports × State
  | [], s => ([], s)
  | m :: ms, s =>
    let t := carryOn m s
    (resultOf m t ++ (runMoves ms t).1, (runMoves ms t).2)

end Sys2Proof.Machine
end

