-- ==== Sys2Proof/Safety.lean ====
section
/-! DEFINITION. What counts as a safe run: the host's duties (70_reset_and_hazards.md R87, R88, R90, R95), and the facts
about the ports and the host's record that every step keeps. -/

namespace Sys2Proof.Safety

open Sys2Proof.Machine

/-- The result on the ports is the result of the word on the input port, and of nothing else (R9, R14, R30). -/
def PortsShowCommand (s : State) : Prop := s.out = s.cmd.map (evaluate s.layout)

/-- A word the host has read and that no write has overtaken is still what the register holds (R88). -/
def FreshIsCurrent (s : State) : Prop :=
  ∀ n w, regGet s.held n = some { word := w, fresh := true } → regGet s.sensor n = w

/-- The invariant of the model. -/
def Inv (s : State) : Prop := PortsShowCommand s ∧ FreshIsCurrent s

/-- The host holds the command's `D` as a word read from a register of the operation's own kind (R38, R87, R95): a
configuration field is relied on only after the register that carries it has been read (log entry 17), and a writing
operation takes a word that no write has overtaken (R88). -/
def hasRead (s : State) (i : Instr) : Bool :=
  SensorReg.all.any fun n =>
    takesWordOf i n &&
      match regGet s.held n with
      | some h => h.word == dataOf i && (h.fresh || !writesConfig i)
      | none => false

/-- R87, R95: a command the host may present: legal, and its `D` read as the operation asks. -/
def commandMeetsDuty (s : State) (cmd : Command) : Bool :=
  match decode cmd with
  | .legal i => hasRead s i
  | .illegalCommand _ => false

/-- R88, R95: the bytes are those of the result `word` of a legal writing command (`ok` = 1) whose `D` is the word the
host read from this same register, one of the operation's own kind, with no write to it since. DESIGN CHOICE (log entry
16): the command is the last one presented, its result still on the ports; R88 and R95 do not say whether another command
may come between. -/
def writesBackResult (s : State) (n : SensorReg) (bytes : List Byte) : Bool :=
  match s.cmd, s.out, regGet s.held n with
  | some cmd, some p, some h =>
    match decode cmd with
    | .legal i =>
      writesConfig i && takesWordOf i n && p.ok && h.fresh && dataOf i == h.word && bytes == bytesOfWord p.word
    | .illegalCommand _ => false
  | _, _, _ => false

/-- The host's next move meets its duties (R95). Reads are always allowed; what another agent or the sensor does is not
the host's move. -/
def moveMeetsDuty (s : State) : HostMove → Bool
  | .command cmd => commandMeetsDuty s cmd
  | .read .. => true
  | .write device register bytes _ =>
    match resolve s.map device register with
    | some n => writesBackResult s n bytes
    | none => false
  | .otherWrite .. | .converts _ => true

/-- Every move of the run meets the host's duties where it comes. -/
def movesMeetDuty : List HostMove → State → Bool
  | [], _ => true
  | m :: ms, s => moveMeetsDuty s m && movesMeetDuty ms (carryOn m s)

/-- The word is a legal writing command: presenting it begins an update (R88, R95). -/
def beginsUpdate (cmd : Command) : Bool :=
  match decode cmd with
  | .legal i => writesConfig i
  | .illegalCommand _ => false

/-- R95, C8: every update is one write on the read before it, even when the result is the word it read. `owed`
says that an update has been begun and its write has not come. While one is owed the host's next move is its write, done
or failed, and when none is owed the host writes nothing. DESIGN CHOICE (log entry 16): between a writing command and its
write the host presents no other command and reads no register; R88 and R95 forbid another write there and say no more.
What the other agent and the sensor do is not the host's move. -/
def updatesInTurn (owed : Bool) : List HostMove → Bool
  | [] => !owed
  | .command cmd :: ms => !owed && updatesInTurn (beginsUpdate cmd) ms
  | .read .. :: ms => !owed && updatesInTurn false ms
  | .write .. :: ms => owed && updatesInTurn false ms
  | .otherWrite .. :: ms | .converts _ :: ms => updatesInTurn owed ms

/-- The run meets the host's duties (R95): each move where it comes, and every update one write in its turn. -/
def runMeetsDuty (ms : List HostMove) (s : State) : Bool := movesMeetDuty ms s && updatesInTurn false ms

/-- The host tries to write a register. -/
def isHostWrite : HostMove → Bool
  | .write .. => true
  | .command _ | .read .. | .otherWrite .. | .converts _ => false

/-- The host begins an update. -/
def isUpdateCommand : HostMove → Bool
  | .command cmd => beginsUpdate cmd
  | .read .. | .write .. | .otherWrite .. | .converts _ => false

end Sys2Proof.Safety
end

