-- ==== Sys2Proof/Certificates/Slice0/Obligations.lean ====
section
/-! DEFINITION. The statements for the provers: what the spec's numbered rules say the block, its encoding, the host's
transport and a whole run do. -/

namespace Sys2Proof.Claims

open Sys2Proof.Machine

/-- The ports of a result that is a configuration word: `ok` 1, the word, every other port 0 (10_state.md R14, R15). -/
def onlyWord (w : Word) : Ports where
  ok := true
  word := w
  neg := false
  dec := 0
  frac := 0
  s := false
  e := false
  m := false
  p := false
  l := false
  r := 0

/-- Every port 0 (R15, R69). -/
def allZero : Ports := { onlyWord 0 with ok := false }

/-- `trunc`, toward zero (40_temperature_decode.md R52). -/
def truncZero (q : Rat) : Int := if 0 ≤ q then q.floor else -(-q).floor

/-- The operand fields each operation uses, as bits of the command word (30_encoding.md R42, R37). -/
def usedFields : Nat → Command
  | 2 => 0x03F8FFFF#32
  | 5 => 0x0300FFFF#32
  | 6 => 0x00F0FFFF#32
  | _ => 0x0000FFFF#32

/-- The word lies in the opcode table's row for `op` (30_encoding.md R45). -/
def inRow (op : Nat) (cmd : Command) : Prop := cmd &&& 0xFC070000#32 = BitVec.ofNat 32 op <<< 16

/-- The fields of a command word (30_encoding.md R37) are these numbers, and `X` is 0. -/
def wordHas (w : Command) (op d s e m p l r : Nat) : Prop :=
  (w.extractLsb' 16 3).toNat = op ∧ (w.extractLsb' 0 16).toNat = d ∧ (w.getLsbD 19).toNat = s ∧
  (w.getLsbD 20).toNat = e ∧ (w.getLsbD 21).toNat = m ∧ (w.getLsbD 22).toNat = p ∧ (w.getLsbD 23).toNat = l ∧
  (w.extractLsb' 24 2).toNat = r ∧ w.extractLsb' 26 6 = 0

/-- R43, R44: the word is illegal. -/
def isIllegal (cmd : Command) : Prop := cmd.extractLsb' 26 6 ≠ 0 ∨ cmd.extractLsb' 16 3 = 7

end Sys2Proof.Claims

open Sys2Proof Sys2Proof.Machine Sys2Proof.Safety Sys2Proof.Claims

/-! ### The seven operations -/

/-- R50, R51. The words of row 0 decode to DECODE_TEMP of `cmd[15:0]`; it always completes, drives `neg` with bit 12,
`dec` with the signed whole degrees, `frac` with the sixteenths, all other ports with 0, and changes nothing else. -/
def Obligations.DecodeTempSplitsSignMagnitude : Prop :=
  (∀ cmd : Command, cmd &&& 0xFC070000#32 = 0x00000000#32 →
    decode cmd = .legal (.decodeTemp (cmd.extractLsb' 0 16))) ∧
  ∀ (d : Word) (s : State), ∃ p : Ports,
    exec (.decodeTemp d) s = .next { s with out := some p } ∧
    p.ok = true ∧ p.neg = d.getLsbD 12 ∧
    sv p.dec = (if d.getLsbD 12 then -1 else 1) * ((d.toNat % 4096 / 16 : Nat) : Int) ∧
    p.frac.toNat = d.toNat % 16 ∧
    p.word = 0 ∧ p.s = false ∧ p.e = false ∧ p.m = false ∧ p.p = false ∧ p.l = false ∧ p.r = 0

/-- R59. The words of row 1 decode to UNPACK_CFG; it drives each flag port with the bit at its layout position and `r`
with the two bits at `res`, all other ports with 0, and changes nothing else. -/
def Obligations.UnpackCfgReadsEveryField : Prop :=
  (∀ cmd : Command, cmd &&& 0xFC070000#32 = 0x00010000#32 →
    decode cmd = .legal (.unpackCfg (cmd.extractLsb' 0 16))) ∧
  ∀ (d : Word) (s : State), ∃ p : Ports,
    exec (.unpackCfg d) s = .next { s with out := some p } ∧
    p.ok = true ∧
    p.s = d.getLsbD s.layout.pos.shdn ∧ p.e = d.getLsbD s.layout.pos.aen ∧
    p.m = d.getLsbD s.layout.pos.amod ∧ p.p = d.getLsbD s.layout.pos.apol ∧
    p.l = d.getLsbD s.layout.pos.asel ∧
    p.r.toNat = (d.getLsbD s.layout.pos.res).toNat + 2 * (d.getLsbD (s.layout.pos.res + 1 : Nat)).toNat ∧
    p.word = 0 ∧ p.neg = false ∧ p.dec = 0 ∧ p.frac = 0 ∧
    (∀ d' : Word, d' &&& fieldMask s.layout = d &&& fieldMask s.layout →
      exec (.unpackCfg d') s = .next { s with out := some p })

/-- R60. The words of row 2 decode to PACK_CFG with its six fields; its word has the five flags and the two resolution
bits at their positions and every other bit of `d`, and packing what `d` already holds gives `d`. -/
def Obligations.PackCfgWritesFieldsKeepsPreserved : Prop :=
  (∀ cmd : Command, cmd &&& 0xFC070000#32 = 0x00020000#32 →
    decode cmd = .legal (.packCfg (cmd.extractLsb' 0 16) (cmd.getLsbD 19) (cmd.getLsbD 20) (cmd.getLsbD 21)
      (cmd.getLsbD 22) (cmd.getLsbD 23) (ResMode.ofCode (cmd.extractLsb' 24 2)))) ∧
  ∀ (d : Word) (sh e m p l : Bool) (r : ResMode) (s : State), ∃ w : Word,
    exec (.packCfg d sh e m p l r) s = .next { s with out := some (onlyWord w) } ∧
    (∀ k : Nat, k < 16 → w.getLsbD k =
      if k = s.layout.pos.shdn then sh
      else if k = s.layout.pos.aen then e
      else if k = s.layout.pos.amod then m
      else if k = s.layout.pos.apol then p
      else if k = s.layout.pos.asel then l
      else if k = s.layout.pos.res then r.code.getLsbD 0
      else if k = s.layout.pos.res.val + 1 then r.code.getLsbD 1
      else d.getLsbD k) ∧
    w &&& ~~~ fieldMask s.layout = d &&& ~~~ fieldMask s.layout ∧
    (get1 d s.layout.pos.shdn = sh → get1 d s.layout.pos.aen = e → get1 d s.layout.pos.amod = m →
      get1 d s.layout.pos.apol = p → get1 d s.layout.pos.asel = l → getRes s.layout d = r.code → w = d)

/-- R61. The words of row 3 decode to ENTER_SHDN; its word is `d` with bit `L.shdn` set, `d | M_SHDN`, and entering again
gives the same word. -/
def Obligations.EnterShdnSetsOnlyShutdown : Prop :=
  (∀ cmd : Command, cmd &&& 0xFC070000#32 = 0x00030000#32 →
    decode cmd = .legal (.enterShdn (cmd.extractLsb' 0 16))) ∧
  ∀ (d : Word) (s : State), ∃ w : Word,
    exec (.enterShdn d) s = .next { s with out := some (onlyWord w) } ∧
    (∀ k : Nat, k < 16 → w.getLsbD k = if k = s.layout.pos.shdn then true else d.getLsbD k) ∧
    w = d ||| mShdn s.layout ∧
    (d.getLsbD s.layout.pos.shdn = true → w = d) ∧
    exec (.enterShdn w) s = .next { s with out := some (onlyWord w) }

/-- R62. The words of row 4 decode to EXIT_SHDN; its word is `d` with bit `L.shdn` cleared, `d & ~M_SHDN`, exiting again
gives the same word, and exiting after entering gives `d` exactly when the bit was 0. -/
def Obligations.ExitShdnClearsOnlyShutdown : Prop :=
  (∀ cmd : Command, cmd &&& 0xFC070000#32 = 0x00040000#32 →
    decode cmd = .legal (.exitShdn (cmd.extractLsb' 0 16))) ∧
  ∀ (d : Word) (s : State), ∃ w v : Word,
    exec (.exitShdn d) s = .next { s with out := some (onlyWord w) } ∧
    (∀ k : Nat, k < 16 → w.getLsbD k = if k = s.layout.pos.shdn then false else d.getLsbD k) ∧
    w = d &&& ~~~ mShdn s.layout ∧
    exec (.exitShdn w) s = .next { s with out := some (onlyWord w) } ∧
    exec (.enterShdn d) s = .next { s with out := some (onlyWord v) } ∧
    exec (.exitShdn v) s = .next { s with out := some (onlyWord (d &&& ~~~ mShdn s.layout)) } ∧
    (d &&& ~~~ mShdn s.layout = d ↔ get1 d s.layout.pos.shdn = false)

/-- R63. The words of row 5 decode to SET_RES with `cmd[25:24]`; its word is `d` with the two RES bits replaced by the
code, and setting the code `d` holds gives `d`. -/
def Obligations.SetResWritesOnlyResolution : Prop :=
  (∀ cmd : Command, cmd &&& 0xFC070000#32 = 0x00050000#32 →
    decode cmd = .legal (.setRes (cmd.extractLsb' 0 16) (ResMode.ofCode (cmd.extractLsb' 24 2)))) ∧
  ∀ (d : Word) (r : ResMode) (s : State), ∃ w : Word,
    exec (.setRes d r) s = .next { s with out := some (onlyWord w) } ∧
    (∀ k : Nat, k < 16 → w.getLsbD k =
      if k = s.layout.pos.res then r.code.getLsbD 0
      else if k = s.layout.pos.res.val + 1 then r.code.getLsbD 1
      else d.getLsbD k) ∧
    (getRes s.layout d = r.code → w = d)

/-- R64. The words of row 6 decode to SET_ALERT with E, M, P and L; its word is `d` with the four alert flags replaced,
and setting the values `d` holds gives `d`. -/
def Obligations.SetAlertWritesOnlyAlertFlags : Prop :=
  (∀ cmd : Command, cmd &&& 0xFC070000#32 = 0x00060000#32 →
    decode cmd = .legal (.setAlert (cmd.extractLsb' 0 16) (cmd.getLsbD 20) (cmd.getLsbD 21) (cmd.getLsbD 22)
      (cmd.getLsbD 23))) ∧
  ∀ (d : Word) (e m p l : Bool) (s : State), ∃ w : Word,
    exec (.setAlert d e m p l) s = .next { s with out := some (onlyWord w) } ∧
    (∀ k : Nat, k < 16 → w.getLsbD k =
      if k = s.layout.pos.aen then e
      else if k = s.layout.pos.amod then m
      else if k = s.layout.pos.apol then p
      else if k = s.layout.pos.asel then l
      else d.getLsbD k) ∧
    (get1 d s.layout.pos.aen = e → get1 d s.layout.pos.amod = m → get1 d s.layout.pos.apol = p →
      get1 d s.layout.pos.asel = l → w = d)

/-! ### Laws of the decoder -/

/-- R52. The decoder agrees with the exact value of the word, for every word. -/
def Obligations.DecodeTempAgreesWithValue : Prop :=
  ∀ (d : Word) (s : State), ∃ p : Ports,
    exec (.decodeTemp d) s = .next { s with out := some p } ∧
    tempValue d = (if d.getLsbD 12 then -1 else 1) * ((d.toNat % 4096 : Nat) : Rat) / 16 ∧
    tempValue d = (sv p.dec : Rat) + (if p.neg then -1 else 1) * (p.frac.toNat : Rat) / 16 ∧
    (tempValue d ≠ 0 → (p.neg = true ↔ tempValue d < 0)) ∧
    sv p.dec = truncZero (tempValue d) ∧
    (∃ mant : Int, -(2 : Int) ^ 12 < mant ∧ mant < 2 ^ 12 ∧ tempValue d = (mant : Rat) / 2 ^ 4)

/-- R53. Every word decodes, and the outputs stay in range. -/
def Obligations.DecodeTempOutputsInRange : Prop :=
  ∀ (d : Word) (s : State), ∃ p : Ports,
    exec (.decodeTemp d) s = .next { s with out := some p } ∧
    -255 ≤ sv p.dec ∧ sv p.dec ≤ 255 ∧ p.frac.toNat ≤ 15 ∧
    (p.neg = false → 0 ≤ sv p.dec) ∧ (sv p.dec < 0 → p.neg = true)

/-- R54. Bits 15:13 of the word affect no output. -/
def Obligations.DecodeTempIgnoresTopBits : Prop :=
  ∀ (d : Word) (s : State), ∃ p : Ports,
    exec (.decodeTemp d) s = .next { s with out := some p } ∧
    exec (.decodeTemp (d &&& 0x1FFF#16)) s = .next { s with out := some p }

/-- R55. Negative zero keeps its sign bit, and the sign of the value itself is `neg` with a nonzero `dec` or `frac`. -/
def Obligations.NegativeZeroKeepsSignBit : Prop :=
  ∀ (d : Word) (s : State), ∃ p : Ports,
    exec (.decodeTemp d) s = .next { s with out := some p } ∧
    p.neg = d.getLsbD 12 ∧
    (d &&& 0x1FFF#16 = 0x1000#16 → p.neg = true ∧ p.dec = 0 ∧ p.frac = 0 ∧ tempValue d = 0) ∧
    (tempValue d < 0 ↔ p.neg = true ∧ (p.dec ≠ 0 ∨ p.frac ≠ 0))

/-- R57. The decoder reads no state: in any two states the same word gives the same ports. It loses no bit of the field
and does not clamp: +200 °C and +255.9375 °C decode like any other word. -/
def Obligations.DecodeTempReadsWordOnly : Prop :=
  (∀ (d : Word) (s t : State), ∃ p : Ports,
    exec (.decodeTemp d) s = .next { s with out := some p } ∧
    exec (.decodeTemp d) t = .next { t with out := some p } ∧
    (∀ d' : Word, exec (.decodeTemp d') s = .next { s with out := some p } →
      d' &&& 0x1FFF#16 = d &&& 0x1FFF#16)) ∧
  (∀ s : State, ∃ p q : Ports,
    exec (.decodeTemp 0x0C80#16) s = .next { s with out := some p } ∧ sv p.dec = 200 ∧ p.frac = 0 ∧
    exec (.decodeTemp 0x0FFF#16) s = .next { s with out := some q } ∧ sv q.dec = 255 ∧ q.frac = 15)

/-! ### Laws of the packer -/

/-- R20. The masks, bit by bit; exactly seven bits of FIELD_MASK are set under every legal layout; the default masks. -/
def Obligations.FieldMaskHasSevenBits : Prop :=
  (∀ L : CfgLayout,
    (∀ k : Nat, k < 16 → ((mShdn L).getLsbD k = true ↔ k = L.pos.shdn)) ∧
    (∀ k : Nat, k < 16 → ((mAlert L).getLsbD k = true ↔
      k = L.pos.aen ∨ k = L.pos.amod ∨ k = L.pos.apol ∨ k = L.pos.asel)) ∧
    (∀ k : Nat, k < 16 → ((mRes L).getLsbD k = true ↔ k = L.pos.res ∨ k = L.pos.res.val + 1)) ∧
    fieldMask L = mShdn L ||| mAlert L ||| mRes L ∧
    ((List.range 16).filter fun k => (fieldMask L).getLsbD k).length = 7) ∧
  mShdn layoutDefault = 0x0100#16 ∧ mAlert layoutDefault = 0x000F#16 ∧ mRes layoutDefault = 0x1800#16 ∧
  fieldMask layoutDefault = 0x190F#16 ∧ ~~~ fieldMask layoutDefault = 0xE6F0#16

/-- R58. Each accessor reads or changes only its own field's bits. -/
def Obligations.AccessorsTouchOnlyTheirField : Prop :=
  ∀ (L : CfgLayout) (w : Word),
    (∀ (pos : Fin 16) (b : Bool), get1 (put1 w pos b) pos = b ∧ put1 w pos (get1 w pos) = w ∧
      get1 w pos = w.getLsbD pos ∧
      ∀ k : Nat, k < 16 → k ≠ pos → (put1 w pos b).getLsbD k = w.getLsbD k) ∧
    (∀ r : BitVec 2, getRes L (putRes L w r) = r ∧ putRes L w (getRes L w) = w ∧
      (getRes L w).toNat = (w.getLsbD L.pos.res).toNat + 2 * (w.getLsbD (L.pos.res.val + 1)).toNat ∧
      ∀ k : Nat, k < 16 → k ≠ L.pos.res → k ≠ L.pos.res.val + 1 → (putRes L w r).getLsbD k = w.getLsbD k)

/-- R65. Every writing operation completes with a word that keeps every bit of `D` outside its field mask, where the
mask is FIELD_MASK for PACK_CFG, M_SHDN for ENTER_SHDN and EXIT_SHDN, M_RES for SET_RES and M_ALERT for SET_ALERT. -/
def Obligations.WritesPreserveOtherBits : Prop :=
  (∀ (i : Instr) (s : State), writesConfig i = true → ∃ w : Word,
    exec i s = .next { s with out := some (onlyWord w) } ∧
    w &&& ~~~ writtenMask s.layout i = dataOf i &&& ~~~ writtenMask s.layout i) ∧
  (∀ (L : CfgLayout) (d : Word) (sh e m p l : Bool) (r : ResMode),
    writtenMask L (.packCfg d sh e m p l r) = fieldMask L ∧ writesConfig (.packCfg d sh e m p l r) = true ∧
    writtenMask L (.enterShdn d) = mShdn L ∧ writesConfig (.enterShdn d) = true ∧
    writtenMask L (.exitShdn d) = mShdn L ∧ writesConfig (.exitShdn d) = true ∧
    writtenMask L (.setRes d r) = mRes L ∧ writesConfig (.setRes d r) = true ∧
    writtenMask L (.setAlert d e m p l) = mAlert L ∧ writesConfig (.setAlert d e m p l) = true)

/-- R66. The five inverse laws. -/
def Obligations.PackUnpackInverseLaws : Prop :=
  ∀ (s : State) (d : Word),
    (∀ (sh e m p l : Bool) (r : ResMode), ∃ (w : Word) (q : Ports),
      exec (.packCfg d sh e m p l r) s = .next { s with out := some (onlyWord w) } ∧
      exec (.unpackCfg w) s = .next { s with out := some q } ∧
      q.s = sh ∧ q.e = e ∧ q.m = m ∧ q.p = p ∧ q.l = l ∧ q.r = r.code) ∧
    (∃ q : Ports, exec (.unpackCfg d) s = .next { s with out := some q } ∧
      exec (.packCfg d q.s q.e q.m q.p q.l (ResMode.ofCode q.r)) s = .next { s with out := some (onlyWord d) }) ∧
    (∀ r : ResMode, ∃ (w : Word) (q q' : Ports),
      exec (.setRes d r) s = .next { s with out := some (onlyWord w) } ∧
      exec (.unpackCfg d) s = .next { s with out := some q } ∧
      exec (.unpackCfg w) s = .next { s with out := some q' } ∧
      q'.r = r.code ∧ q'.s = q.s ∧ q'.e = q.e ∧ q'.m = q.m ∧ q'.p = q.p ∧ q'.l = q.l) ∧
    (∃ w v w' v' : Word,
      exec (.enterShdn d) s = .next { s with out := some (onlyWord w) } ∧
      exec (.exitShdn w) s = .next { s with out := some (onlyWord v) } ∧
      (v = d ↔ get1 d s.layout.pos.shdn = false) ∧
      exec (.exitShdn d) s = .next { s with out := some (onlyWord w') } ∧
      exec (.enterShdn w') s = .next { s with out := some (onlyWord v') } ∧
      (v' = d ↔ get1 d s.layout.pos.shdn = true)) ∧
    (∀ (r : ResMode) (e m p l : Bool), ∃ w1 w2 w3 w4 : Word,
      exec (.enterShdn d) s = .next { s with out := some (onlyWord w1) } ∧
      exec (.enterShdn w1) s = .next { s with out := some (onlyWord w1) } ∧
      exec (.exitShdn d) s = .next { s with out := some (onlyWord w2) } ∧
      exec (.exitShdn w2) s = .next { s with out := some (onlyWord w2) } ∧
      exec (.setRes d r) s = .next { s with out := some (onlyWord w3) } ∧
      exec (.setRes w3 r) s = .next { s with out := some (onlyWord w3) } ∧
      exec (.setAlert d e m p l) s = .next { s with out := some (onlyWord w4) } ∧
      exec (.setAlert w4 e m p l) s = .next { s with out := some (onlyWord w4) })

/-! ### Every command -/

/-- R31. Every command completes; nothing but the output ports changes; evaluating it again gives the same. -/
def Obligations.CommandsChangeOnlyOutputs : Prop :=
  ∀ (i : Instr) (s : State), ∃ t : State,
    exec i s = .next t ∧
    t.layout = s.layout ∧ t.map = s.map ∧ t.cmd = s.cmd ∧ t.sensor = s.sensor ∧ t.held = s.held ∧
    t.busError = s.busError ∧ t.pending = s.pending ∧
    exec i t = .next t

/-- R15. An output port the operation does not drive is 0, and on an illegal command every output is. -/
def Obligations.UndrivenOutputsAreZero : Prop :=
  (∀ (i : Instr) (s : State), ∃ p : Ports,
    exec i s = .next { s with out := some p } ∧ p.ok = true ∧
    ((∀ d, i ≠ .decodeTemp d) → p.neg = false ∧ p.dec = 0 ∧ p.frac = 0) ∧
    ((∀ d, i ≠ .unpackCfg d) →
      p.s = false ∧ p.e = false ∧ p.m = false ∧ p.p = false ∧ p.l = false ∧ p.r = 0) ∧
    (writesConfig i = false → p.word = 0)) ∧
  (∀ (cmd : Command) (s : State), isIllegal cmd → (carryOn (.command cmd) s).out = some allZero)

/-- R9, R30. The outcome of a presented word is a function of the word (and of the layout parameter): two machines in any
two states give it the same outcome. -/
def Obligations.ResultDependsOnCommandAlone : Prop :=
  ∀ (s t : State) (cmd : Command) (rest rest' : List HostMove),
    s.layout = t.layout → s.pending = .command cmd :: rest → t.pending = .command cmd :: rest' →
    (∃ p : Ports,
      step s = .next { s with pending := rest, cmd := some cmd, out := some p } ∧
      step t = .next { t with pending := rest', cmd := some cmd, out := some p }) ∨
    (step s = .fault (.illegalCommand cmd) ∧ step t = .fault (.illegalCommand cmd))

/-! ### Encoding -/

/-- R45. Decoding is total: a word is legal exactly when it lies in one of the seven rows of the opcode table, and then
selects that row's operation. -/
def Obligations.DecodingIsTotalByMask : Prop :=
  ∀ cmd : Command,
    ((∃ i, decode cmd = .legal i) ↔ ∃ op, op < 7 ∧ inRow op cmd) ∧
    (∀ op, op < 7 → inRow op cmd → ∃ i, decode cmd = .legal i ∧ (opOf i).toNat = op) ∧
    ((¬ ∃ op, op < 7 ∧ inRow op cmd) → decode cmd = .illegalCommand cmd) ∧
    (isIllegal cmd ↔ decode cmd = .illegalCommand cmd)

/-- R42. The fields an operation does not use affect neither its legality nor its result. -/
def Obligations.IgnoredFieldsDoNotMatter : Prop :=
  ∀ (op : Nat) (c c' : Command) (s : State), op < 7 → inRow op c → inRow op c' →
    c &&& usedFields op = c' &&& usedFields op →
    ∃ p : Ports,
      presentCommand c s = .next { s with cmd := some c, out := some p } ∧
      presentCommand c' s = .next { s with cmd := some c', out := some p }

/-- R37, R48. Decoding the word the assembler makes of a command gives the command back, for every command and every
value of its operands. -/
def Obligations.DecodeOfEncode : Prop :=
  ∀ i : Instr, decode (encode i) = .legal i

/-- R42, R48. The other direction: the word the assembler makes of what a legal word selects is that word with the
fields its operation ignores set to 0. -/
def Obligations.EncodeOfDecode : Prop :=
  ∀ (cmd : Command) (i : Instr), decode cmd = .legal i →
    encode i = cmd &&& (0xFC070000#32 ||| usedFields (opOf i).toNat)

/-- R37, R39. Words of the test vectors (95_test_vectors.md TD14, TU14, TP5, TS3, TR12, TA4, TX2) decode as listed. -/
def Obligations.ListedWordsDecode : Prop :=
  decode 0x00001014#32 = .legal (.decodeTemp 0x1014#16) ∧
  decode 0x00011906#32 = .legal (.unpackCfg 0x1906#16) ∧
  decode 0x02AAE6F0#32 = .legal (.packCfg 0xE6F0#16 true false true false true .avg) ∧
  decode 0x00031806#32 = .legal (.enterShdn 0x1806#16) ∧
  decode 0x00041806#32 = .legal (.exitShdn 0x1806#16) ∧
  decode 0x03050403#32 = .legal (.setRes 0x0403#16 .max) ∧
  decode 0x00361906#32 = .legal (.setAlert 0x1906#16 true true false false) ∧
  decode 0x04000190#32 = .illegalCommand 0x04000190#32

/-- R22. The four modes are the four codes, none left over and none shared. -/
def Obligations.ResolutionCodesAreAllLegal : Prop :=
  (∀ c : BitVec 2, (ResMode.ofCode c).code = c) ∧ (∀ m : ResMode, ResMode.ofCode m.code = m) ∧
  ResMode.min.code = 0b00#2 ∧ ResMode.low.code = 0b01#2 ∧ ResMode.avg.code = 0b10#2 ∧ ResMode.max.code = 0b11#2

/-- The table of R48. A line assembles exactly when its numbers are in range (`d` below 65536, a flag below 2, a
resolution code below 4, a byte below 256); the word's fields are then the numbers written, every field the line does not
name is 0 (`X` included), and the word is legal. That a line holds its operands as numbers is the model's form of it; what
text gives such a line is log entry 9. -/
def Obligations.AssemblerMakesLegalWords : Prop :=
  (∀ d : Nat,
    (d < 65536 →
      (∃ w, assemble (.decodeTemp d) = some w ∧ wordHas w 0 d 0 0 0 0 0 0) ∧
      (∃ w, assemble (.unpackCfg d) = some w ∧ wordHas w 1 d 0 0 0 0 0 0) ∧
      (∃ w, assemble (.enterShdn d) = some w ∧ wordHas w 3 d 0 0 0 0 0 0) ∧
      (∃ w, assemble (.exitShdn d) = some w ∧ wordHas w 4 d 0 0 0 0 0 0)) ∧
    (¬ d < 65536 → assemble (.decodeTemp d) = none ∧ assemble (.unpackCfg d) = none ∧
      assemble (.enterShdn d) = none ∧ assemble (.exitShdn d) = none)) ∧
  (∀ d s e m p l r : Nat,
    (d < 65536 ∧ s < 2 ∧ e < 2 ∧ m < 2 ∧ p < 2 ∧ l < 2 ∧ r < 4 →
      ∃ w, assemble (.packCfg d s e m p l r) = some w ∧ wordHas w 2 d s e m p l r) ∧
    (¬ (d < 65536 ∧ s < 2 ∧ e < 2 ∧ m < 2 ∧ p < 2 ∧ l < 2 ∧ r < 4) → assemble (.packCfg d s e m p l r) = none)) ∧
  (∀ d r : Nat,
    (d < 65536 ∧ r < 4 → ∃ w, assemble (.setRes d r) = some w ∧ wordHas w 5 d 0 0 0 0 0 r) ∧
    (¬ (d < 65536 ∧ r < 4) → assemble (.setRes d r) = none)) ∧
  (∀ d e m p l : Nat,
    (d < 65536 ∧ e < 2 ∧ m < 2 ∧ p < 2 ∧ l < 2 →
      ∃ w, assemble (.setAlert d e m p l) = some w ∧ wordHas w 6 d 0 e m p l 0) ∧
    (¬ (d < 65536 ∧ e < 2 ∧ m < 2 ∧ p < 2 ∧ l < 2) → assemble (.setAlert d e m p l) = none)) ∧
  (∀ b0 b1 : Nat,
    (b0 < 256 ∧ b1 < 256 →
      ∃ w, assemble (.decodeBytes b0 b1) = some w ∧ wordHas w 0 (b0 * 256 + b1) 0 0 0 0 0 0) ∧
    (¬ (b0 < 256 ∧ b1 < 256) → assemble (.decodeBytes b0 b1) = none)) ∧
  (∀ (a : AsmLine) (w : Command), assemble a = some w → decode w = .legal (instrOfLine a))

/-- R49. DECODE_BYTES b0, b1 assembles to the word of DECODE_TEMP ((b0 << 8) | b1). -/
def Obligations.DecodeBytesIsBigEndian : Prop :=
  (∀ b0 b1 : Nat, b0 < 256 → b1 < 256 →
    ∃ w : Command, assemble (.decodeBytes b0 b1) = some w ∧
      assemble (.decodeTemp ((b0 <<< 8) ||| b1)) = some w ∧ w.toNat = b0 * 256 + b1) ∧
  assemble (.decodeBytes 0x01 0x90) = some 0x00000190#32

/-! ### The one fault -/

/-- R43, R44, R73. Presenting a word with `X` other than 0 or `OP` = 7, or both, is the one fault IllegalCommand with the
word; every other word is accepted. -/
def Obligations.IllegalCommandFaults : Prop :=
  ∀ (s : State) (cmd : Command) (rest : List HostMove), s.pending = .command cmd :: rest →
    (isIllegal cmd → step s = .fault (.illegalCommand cmd)) ∧
    (¬ isIllegal cmd → ∃ p : Ports, p.ok = true ∧
      step s = .next { s with pending := rest, cmd := some cmd, out := some p })

/-- R69, R70, R74, R75. A host that goes on after an illegal command finds every port 0 and nothing else changed, code 1,
and its next command gives the result it would have given before. -/
def Obligations.IllegalCommandLeavesNoTrace : Prop :=
  ∀ (bad good : Command) (s : State), isIllegal bad →
    commandCode bad = 1 ∧
    carryOn (.command bad) s = { s with cmd := some bad, out := some allZero } ∧
    carryOn (.command good) (carryOn (.command bad) s) = carryOn (.command good) s

/-! ### The step -/

/-- A step with a word pending that decodes to `i` is `exec i`, with the move taken off and the word on the input port
(R11, R13). -/
def Obligations.StepRunsDecodedCommand : Prop :=
  ∀ (s : State) (cmd : Command) (i : Instr) (rest : List HostMove),
    s.pending = .command cmd :: rest → decode cmd = .legal i →
    step s = exec i { s with pending := rest, cmd := some cmd }

/-- R24, R86. At power-on there is no result on the ports; RES of the configuration word, where the layout of the reset
state places it, is MAX, and its other bits are the draw CFG_RESET_OTHER; the temperature-format words are the draws
TEMP_RESET. The model's choices: the layout at reset is LAYOUT_DEFAULT (log entry 1), and the draws are opaque constants
(log entry 3). -/
def Obligations.ResetLeavesDraws : Prop :=
  State.reset.layout = layoutDefault ∧
  State.reset.out = none ∧
  getRes State.reset.layout State.reset.sensor.configuration = ResMode.max.code ∧
  (∀ k : Nat, k < 16 → k ≠ State.reset.layout.pos.res → k ≠ State.reset.layout.pos.res.val + 1 →
    State.reset.sensor.configuration.getLsbD k = Config.cfgResetOther.getLsbD k) ∧
  State.reset.sensor.temperature = Config.tempReset .temperature ∧
  State.reset.sensor.upperBoundary = Config.tempReset .upperBoundary ∧
  State.reset.sensor.lowerBoundary = Config.tempReset .lowerBoundary

/-- The invariant holds at reset. Its half about the words the host has read rests on the model's choice that the host has
read nothing at reset (log entry 6). -/
def Obligations.ResetMeetsInvariant : Prop := Inv State.reset

/-- From every state that meets it, a step keeps the invariant: the ports show the result of the word on the input port
and of nothing else (R9, R14, R30), and a word the host has read that no write has overtaken is what the register holds
(R88). So does a host that goes on after a stop (R75, R90). What the host has read, and what overtakes it, are the model's
own record (log entries 6, 12 and 13), and that the ports keep the last word and its result is log entry 15. -/
def Obligations.StepKeepsInvariant : Prop :=
  (∀ s t : State, Inv s → step s = .next t → Inv t) ∧
  (∀ (m : HostMove) (s : State), Inv s → Inv (carryOn m s))

/-- R18, R26. No step changes a parameter. -/
def Obligations.StepKeepsParameters : Prop :=
  ∀ s t : State, step s = .next t → t.layout = s.layout ∧ t.map = s.map

/-- R31. A register of the sensor changes only by a host's write that succeeds, another agent's write, or (the
temperature register) a conversion; it then holds the word written. The model's choices: a register takes every word
written (log entry 7), and these moves are all there are (log entry 8). -/
def Obligations.OnlyWritesChangeRegisters : Prop :=
  ∀ (s t : State) (m : HostMove) (rest : List HostMove) (n : SensorReg),
    s.pending = m :: rest → step s = .next t → regGet t.sensor n ≠ regGet s.sensor n →
    (∃ device register bytes, m = .write device register bytes true ∧
      resolve s.map device register = some n ∧ operandOfBytes bytes = some (regGet t.sensor n)) ∨
    m = .otherWrite n (regGet t.sensor n) ∨
    (n = .temperature ∧ m = .converts (regGet t.sensor n))

/-- R25, R31. Only a command changes the ports. That they keep the last word and its result over the other moves is the
model's choice (log entry 15). -/
def Obligations.OnlyCommandsChangePorts : Prop :=
  ∀ (s t : State) (m : HostMove) (rest : List HostMove),
    s.pending = m :: rest → step s = .next t → (∀ cmd, m ≠ .command cmd) → t.cmd = s.cmd ∧ t.out = s.out

/-! ### The transport -/

/-- R27. Two bytes in bus order are one operand, the first byte high; a word goes out high byte first; the sign bit of a
temperature word is bit 4 of the first byte and its magnitude bits 11:8 are bits 3:0 of the first byte. -/
def Obligations.BusOrderIsBigEndian : Prop :=
  (∀ b0 b1 : Byte, ∃ d : Word, operandOfBytes [b0, b1] = some d ∧
    d.toNat = b0.toNat * 256 + b1.toNat ∧
    tempSign d = b0.getLsbD 4 ∧ (tempMagnitude d).toNat / 256 = b0.toNat % 16) ∧
  (∀ w : Word, ∃ b0 b1 : Byte, bytesOfWord w = [b0, b1] ∧
    b0.toNat = w.toNat / 256 ∧ b1.toNat = w.toNat % 256 ∧ operandOfBytes [b0, b1] = some w)

/-- R26, R29, R90. A read or a write of other than two bytes is refused; so is a read that fails. -/
def Obligations.OnlyWholeWordsTransfer : Prop :=
  ∀ (s : State) (device register : Nat) (n : SensorReg) (rest : List HostMove),
    resolve s.map device register = some n →
    (∀ count, count ≠ 2 → s.pending = .read device register (.bytes count) :: rest →
      step s = .refused .readNotTwoBytes) ∧
    (s.pending = .read device register .failed :: rest → step s = .refused .readFailed) ∧
    (∀ bytes done, bytes.length ≠ 2 → s.pending = .write device register bytes done :: rest →
      step s = .refused .writeNotTwoBytes)

/-- R94. Register access works whatever SHDN is: a read gives the host the register's word, and a write of two bytes gives
the register that word, and nothing else changes but the host's record of what it has read. The model's choices: a register
takes exactly the word written (log entry 7), the host's record of what it has read (log entry 6), which a write overtakes
(log entry 13), and that the ports keep the last word and its result over an access (log entry 15). -/
def Obligations.AccessWorksInShutdown : Prop :=
  ∀ (s : State) (device register : Nat) (n : SensorReg) (rest : List HostMove),
    resolve s.map device register = some n →
    (s.pending = .read device register (.bytes 2) :: rest → ∃ t : State, step s = .next t ∧
      regGet t.held n = some { word := regGet s.sensor n, fresh := true } ∧
      (∀ k, k ≠ n → regGet t.held k = regGet s.held k) ∧
      t.sensor = s.sensor ∧ t.cmd = s.cmd ∧ t.out = s.out ∧ t.busError = false ∧ t.pending = rest) ∧
    (∀ b0 b1 : Byte, s.pending = .write device register [b0, b1] true :: rest → ∃ t : State, step s = .next t ∧
      regGet t.sensor n = b0 ++ b1 ∧ (∀ k, k ≠ n → regGet t.sensor k = regGet s.sensor k) ∧
      (∀ h, regGet t.held n = some h → h.fresh = false) ∧
      (∀ k, k ≠ n → regGet t.held k = regGet s.held k) ∧
      t.cmd = s.cmd ∧ t.out = s.out ∧ t.busError = false ∧ t.pending = rest)

/-- R90. A failed access leaves every register as it was and the block untouched, and the host sees BusError. After a
failed read the host holds no word of that register, and after a failed write the word it holds is no longer one just
read; after either, no bytes meet the duty of a write back to that register. The host's record is the model's own (log
entry 6); what a failed access does to it is deduced (log entry 12), and that the ports keep the last word and its
result is log entry 15. -/
def Obligations.FailedAccessChangesNoRegister : Prop :=
  ∀ (s : State) (device register : Nat) (n : SensorReg) (b0 b1 : Byte),
    resolve s.map device register = some n →
    (∃ t : State, carryOn (.write device register [b0, b1] false) s = t ∧
      t.sensor = s.sensor ∧ t.cmd = s.cmd ∧ t.out = s.out ∧ t.busError = true ∧
      (regGet t.held n).map Held.word = (regGet s.held n).map Held.word ∧
      (∀ k, k ≠ n → regGet t.held k = regGet s.held k) ∧
      ∀ bytes, writesBackResult t n bytes = false) ∧
    (∃ t : State, carryOn (.read device register .failed) s = t ∧
      t.sensor = s.sensor ∧ t.cmd = s.cmd ∧ t.out = s.out ∧ t.busError = true ∧ regGet t.held n = none ∧
      (∀ k, k ≠ n → regGet t.held k = regGet s.held k) ∧
      ∀ bytes, writesBackResult t n bytes = false)

/-- The sensor's conversion (R92, R93 say only that it takes time, and that no law of its words is promised). The model's
choices: it is a move that may give the temperature register any word and changes no other register (log entry 8), and the
ports keep the last word and its result over it (log entry 15). -/
def Obligations.ConversionChangesTemperatureOnly : Prop :=
  ∀ (s : State) (w : Word) (rest : List HostMove), s.pending = .converts w :: rest → ∃ t : State,
    step s = .next t ∧ t.sensor = { s.sensor with temperature := w } ∧ t.cmd = s.cmd ∧ t.out = s.out ∧
    t.busError = s.busError ∧ t.pending = rest

/-! ### Whole runs -/

/-- R9, R33, R91, R96. The results of a run of commands, legal or not, in any order, are the results of each word alone;
the run leaves the sensor as it was. -/
def Obligations.RunResultsAreEachCommandsOwn : Prop :=
  ∀ (cmds : List Command) (s : State),
    (runMoves (cmds.map .command) s).1 = cmds.map (evaluate s.layout) ∧
    (runMoves (cmds.map .command) s).2.sensor = s.sensor ∧
    (runMoves (cmds.map .command) s).2.held = s.held

/-- R65, R88. From any state that meets the invariant, a write that meets the host's duty goes to the configuration
register (or is a SET_RES of a dedicated resolution register), changes no register but the one it writes, and in that
register no bit outside the field of the operation whose result it writes. The duty reads the model's record of the host
(log entries 6, 13, 16 and 17), and a register takes the word written (log entry 7). -/
def Obligations.DutifulWriteKeepsOtherBits : Prop :=
  ∀ (s t : State) (device register : Nat) (bytes : List Byte) (done : Bool) (rest : List HostMove),
    Inv s → s.pending = .write device register bytes done :: rest →
    moveMeetsDuty s (.write device register bytes done) = true → step s = .next t →
    ∃ (n : SensorReg) (cmd : Command) (i : Instr),
      resolve s.map device register = some n ∧ s.cmd = some cmd ∧ decode cmd = .legal i ∧
      writesConfig i = true ∧
      (n = .configuration ∨ (n = .resolution ∧ ∃ d r, i = .setRes d r)) ∧
      regGet t.sensor n &&& ~~~ writtenMask s.layout i = regGet s.sensor n &&& ~~~ writtenMask s.layout i ∧
      ∀ k, k ≠ n → regGet t.sensor k = regGet s.sensor k

/-- R65, R88, R95. The whole read-modify-write: read a register, present a writing command on the word read, write the
result back. Whatever the register, it ends with the command's word, its bits outside the command's field are those it had,
and no other register changes. The run meets the host's duties, its one write in its turn, exactly when the register is the
configuration register, or a dedicated resolution register that the command is SET_RES of. That the register takes the word
written is the model's choice (log entry 7), and so is the reading of the duties over its record of the host (log entries
6, 13, 16 and 17). -/
def Obligations.ReadModifyWriteUpdatesOnlyField : Prop :=
  ∀ (s : State) (device register : Nat) (n : SensorReg) (i : Instr),
    resolve s.map device register = some n → writesConfig i = true → dataOf i = regGet s.sensor n →
    ∃ w : Word,
      exec i s = .next { s with out := some (onlyWord w) } ∧
      (runMeetsDuty [.read device register (.bytes 2), .command (encode i),
        .write device register (bytesOfWord w) true] s = true ↔
          n = .configuration ∨ (n = .resolution ∧ ∃ d r, i = .setRes d r)) ∧
      (runMoves [.read device register (.bytes 2), .command (encode i),
        .write device register (bytesOfWord w) true] s).1 = [onlyWord w] ∧
      ∃ t : State, t = (runMoves [.read device register (.bytes 2), .command (encode i),
          .write device register (bytesOfWord w) true] s).2 ∧
        regGet t.sensor n = w ∧
        regGet t.sensor n &&& ~~~ writtenMask s.layout i = regGet s.sensor n &&& ~~~ writtenMask s.layout i ∧
        ∀ k, k ≠ n → regGet t.sensor k = regGet s.sensor k

/-- R89. If another agent writes the register between the host's read and its write, the host's write replaces that
agent's change: the register ends as if the other write had not come. The host's write then fails its duty (R88; the
duty reads the model's record of the host, log entries 6 and 13). That a register takes the word written is log entry 7. -/
def Obligations.LostUpdateIsARun : Prop :=
  ∀ (s : State) (device register : Nat) (n : SensorReg) (i : Instr) (other : Word),
    resolve s.map device register = some n → writesConfig i = true → dataOf i = regGet s.sensor n →
    ∃ w : Word,
      exec i s = .next { s with out := some (onlyWord w) } ∧
      (runMoves [.read device register (.bytes 2), .command (encode i), .otherWrite n other,
        .write device register (bytesOfWord w) true] s).2.sensor =
      (runMoves [.read device register (.bytes 2), .command (encode i),
        .write device register (bytesOfWord w) true] s).2.sensor ∧
      runMeetsDuty [.read device register (.bytes 2), .command (encode i), .otherWrite n other,
        .write device register (bytesOfWord w) true] s = false

/-- R87, R95. A command that meets the host's duty is accepted, and no command presented by a host that has read nothing
meets it. What the host has read is the model's record (log entry 6). -/
def Obligations.DutifulCommandsAreAccepted : Prop :=
  (∀ (s : State) (cmd : Command) (rest : List HostMove), s.pending = .command cmd :: rest →
    moveMeetsDuty s (.command cmd) = true → ∃ t : State, step s = .next t ∧ ∃ p, t.out = some p ∧ p.ok = true) ∧
  (∀ (s : State) (cmd : Command), (∀ n, regGet s.held n = none) → moveMeetsDuty s (.command cmd) = false)

/-- R95, C8. Each update writes once, on a read of its own. In a run that meets the host's duties the host writes as often
as it presents legal writing commands. One write, done or failed, uses up the host's read of the register: whatever moves
follow, no bytes meet the duty of a write back to that register until a two-byte read of it. So in a run that meets the
duties a two-byte read of the register comes between any two writes to it. How many reads the host makes before its writing
command is not bounded. The reading of R95 is the model's (log entries 12, 13 and 16), over its record of the host (log
entry 6). -/
def Obligations.EveryUpdateIsOneWrite : Prop :=
  (∀ (ms : List HostMove) (s : State), runMeetsDuty ms s = true →
    (ms.filter isHostWrite).length = (ms.filter isUpdateCommand).length) ∧
  (∀ (s : State) (device register : Nat) (n : SensorReg) (b0 b1 : Byte) (done : Bool) (ms : List HostMove),
    resolve s.map device register = some n →
    (∀ device' register', .read device' register' (.bytes 2) ∈ ms → resolve s.map device' register' ≠ some n) →
    ∀ bytes, writesBackResult (runMoves ms (carryOn (.write device register [b0, b1] done) s)).2 n bytes = false) ∧
  (∀ (before between after : List HostMove) (s : State) (device register device' register' : Nat) (n : SensorReg)
      (bytes bytes' : List Byte) (done done' : Bool),
    resolve s.map device register = some n → resolve s.map device' register' = some n →
    runMeetsDuty (before ++ .write device register bytes done :: between ++
      .write device' register' bytes' done' :: after) s = true →
    ∃ device'' register'', .read device'' register'' (.bytes 2) ∈ between ∧
      resolve s.map device'' register'' = some n) ∧
  (∀ (s : State) (cmd : Command) (device register : Nat) (n : SensorReg) (b0 b1 : Byte) (bytes : List Byte)
      (done done' : Bool),
    resolve s.map device register = some n →
    runMeetsDuty [.read device register (.bytes 2), .command cmd, .write device register [b0, b1] done,
      .write device register bytes done'] s = false ∧
    runMeetsDuty [.read device register (.bytes 2), .command cmd, .write device register [b0, b1] done,
      .read device register (.bytes 2), .write device register bytes done'] s = false ∧
    runMeetsDuty [.read device register (.bytes 2), .command cmd, .write device register [b0, b1] done,
      .command cmd, .write device register bytes done'] s = false)

/-- R87, R38, R95. A host that starts with no word read relies on no configuration field before it has read the register
that carries it: in a run that meets the host's duties, every command takes as its `D` what a register of its own kind held
when an earlier read in that run read it: for DECODE_TEMP a register in the temperature format, for every other operation
the configuration register, or for UNPACK_CFG and SET_RES a dedicated resolution register (C4; log entries 4 and 17). Having
read the configuration register is enough to unpack its word. What the host has read is the model's record (log entry 6). -/
def Obligations.OperandsAreReadFirst : Prop :=
  (∀ (ms ms' : List HostMove) (cmd : Command) (i : Instr) (s : State),
    (∀ n, regGet s.held n = none) → runMeetsDuty (ms ++ .command cmd :: ms') s = true → decode cmd = .legal i →
    ∃ (before after : List HostMove) (device register : Nat) (n : SensorReg),
      ms = before ++ .read device register (.bytes 2) :: after ∧
      resolve s.map device register = some n ∧
      regGet (runMoves before s).2.sensor n = dataOf i ∧
      (if opOf i = 0 then n = .temperature ∨ n = .upperBoundary ∨ n = .lowerBoundary
        else n = .configuration ∨ (n = .resolution ∧ (opOf i = 1 ∨ opOf i = 5)))) ∧
  (∀ (s : State) (device register : Nat), resolve s.map device register = some .configuration →
    runMeetsDuty [.read device register (.bytes 2),
      .command (encode (.unpackCfg (regGet s.sensor .configuration)))] s = true)
end

