-- ==== Sys2Proof/Laws/Bits.lean ====
section
/-! SUPPORT. The bits of masks, moved fields and accessors (10_state.md R20, 41_config_pack.md R58), one lemma each: every
later proof about a configuration word goes through these. -/

namespace Sys2Proof.Machine

/-- The seven bit indices of a layout differ from one another and lie below 16 (10_state.md R18). -/
theorem layout_distinct (L : CfgLayout) :
    L.pos.res.val ≤ 14 ∧
    (L.pos.shdn.val ≠ L.pos.aen.val ∧ L.pos.shdn.val ≠ L.pos.amod.val ∧ L.pos.shdn.val ≠ L.pos.apol.val ∧
      L.pos.shdn.val ≠ L.pos.asel.val ∧ L.pos.shdn.val ≠ L.pos.res.val ∧ L.pos.shdn.val ≠ L.pos.res.val + 1) ∧
    (L.pos.aen.val ≠ L.pos.amod.val ∧ L.pos.aen.val ≠ L.pos.apol.val ∧ L.pos.aen.val ≠ L.pos.asel.val ∧
      L.pos.aen.val ≠ L.pos.res.val ∧ L.pos.aen.val ≠ L.pos.res.val + 1) ∧
    (L.pos.amod.val ≠ L.pos.apol.val ∧ L.pos.amod.val ≠ L.pos.asel.val ∧ L.pos.amod.val ≠ L.pos.res.val ∧
      L.pos.amod.val ≠ L.pos.res.val + 1) ∧
    (L.pos.apol.val ≠ L.pos.asel.val ∧ L.pos.apol.val ≠ L.pos.res.val ∧ L.pos.apol.val ≠ L.pos.res.val + 1) ∧
    (L.pos.asel.val ≠ L.pos.res.val ∧ L.pos.asel.val ≠ L.pos.res.val + 1) := by
  have h := L.legal
  simp only [Positions.legal, Positions.bits, Bool.and_eq_true, decide_eq_true_eq, List.nodup_cons, List.mem_cons,
    List.not_mem_nil, or_false, not_or] at h
  tauto

theorem bitMask_bit (pos : Fin 16) (k : Nat) : (bitMask pos).getLsbD k = decide (k = pos.val) := by
  have hp := pos.isLt
  simp only [bitMask, BitVec.getLsbD_shiftLeft, BitVec.getLsbD_one]
  rcases Nat.lt_trichotomy k pos.val with h | h | h
  · simp [h, Nat.ne_of_lt h]
  · subst h; simp [hp]
  · have : ¬ k = pos.val := by omega
    have : ¬ (k - pos.val = 0) := by omega
    simp [*]

theorem flagAt_bit (pos : Fin 16) (b : Bool) (k : Nat) :
    (flagAt pos b).getLsbD k = (decide (k = pos.val) && b) := by
  cases b
  · simp [flagAt]
  · have : flagAt pos true = bitMask pos := rfl
    rw [this, bitMask_bit]; simp

theorem resAt_bit (L : CfgLayout) (r : BitVec 2) (k : Nat) :
    (resAt L r).getLsbD k =
      ((decide (k = L.pos.res.val) && r.getLsbD 0) || (decide (k = L.pos.res.val + 1) && r.getLsbD 1)) := by
  have hr := (layout_distinct L).1
  simp only [resAt, BitVec.getLsbD_shiftLeft, BitVec.getLsbD_setWidth]
  generalize L.pos.res.val = q at hr ⊢
  rcases Nat.lt_or_ge k q with h | h
  · have h1 : ¬ k = q := by omega
    have h2 : ¬ k = q + 1 := by omega
    simp [h, h1, h2]
  · obtain ⟨j, rfl⟩ := Nat.exists_eq_add_of_le h
    rcases j with _ | _ | j
    · have h1 : q < 16 := by omega
      simp [h1]
    · have h1 : q + 1 < 16 := by omega
      simp [h1]
    · simp

theorem mRes_bit (L : CfgLayout) (k : Nat) :
    (mRes L).getLsbD k = (decide (k = L.pos.res.val) || decide (k = L.pos.res.val + 1)) := by
  have : mRes L = resAt L 3#2 := rfl
  rw [this, resAt_bit]; simp

theorem mShdn_bit (L : CfgLayout) (k : Nat) : (mShdn L).getLsbD k = decide (k = L.pos.shdn.val) :=
  bitMask_bit _ _

theorem mAlert_bit (L : CfgLayout) (k : Nat) :
    (mAlert L).getLsbD k =
      (decide (k = L.pos.aen.val) || decide (k = L.pos.amod.val) || decide (k = L.pos.apol.val) ||
        decide (k = L.pos.asel.val)) := by
  simp [mAlert, bitMask_bit]

theorem fieldMask_bit (L : CfgLayout) (k : Nat) :
    (fieldMask L).getLsbD k = decide (k ∈ L.pos.bits) := by
  rw [Bool.eq_iff_iff]
  simp [fieldMask, mShdn_bit, mAlert_bit, mRes_bit, Positions.bits, or_assoc]

theorem getRes_bit (L : CfgLayout) (w : Word) (k : Nat) :
    (getRes L w).getLsbD k = (decide (k < 2) && w.getLsbD (L.pos.res.val + k)) := by
  simp [getRes]

theorem put1_bit (w : Word) (pos : Fin 16) (b : Bool) (k : Nat) :
    (put1 w pos b).getLsbD k = if k = pos.val then b else w.getLsbD k := by
  have hp := pos.isLt
  simp only [put1, BitVec.getLsbD_or, BitVec.getLsbD_and, BitVec.getLsbD_not, bitMask_bit, flagAt_bit]
  by_cases hk : k = pos.val
  · simp [hk]
  · by_cases h16 : k < 16
    · simp [hk, h16]
    · simp [hk, h16, BitVec.getLsbD_of_ge w k (by omega)]

theorem putRes_bit (L : CfgLayout) (w : Word) (r : BitVec 2) (k : Nat) :
    (putRes L w r).getLsbD k =
      if k = L.pos.res.val then r.getLsbD 0
      else if k = L.pos.res.val + 1 then r.getLsbD 1
      else w.getLsbD k := by
  simp only [putRes, BitVec.getLsbD_or, BitVec.getLsbD_and, BitVec.getLsbD_not, mRes_bit, resAt_bit]
  by_cases h0 : k = L.pos.res.val
  · simp [h0]
  · by_cases h1 : k = L.pos.res.val + 1
    · simp [h1]
    · by_cases h16 : k < 16
      · simp [h0, h1, h16]
      · simp [h0, h1, h16, BitVec.getLsbD_of_ge w k (by omega)]

end Sys2Proof.Machine
end

