-- ==== Sys2Proof/Laws/Decode.lean ====
section
/-! SUPPORT. The fields of a command word laid out by 30_encoding.md R37, one lemma for the layout's bits and one for each
field: proofs about the encoder go through these. -/

namespace Sys2Proof

theorem commandOf_bit (r : BitVec 2) (l p m e s : Bool) (op : BitVec 3) (d : Word) (k : Nat) :
    (commandOf r l p m e s op d).getLsbD k =
      if k < 16 then d.getLsbD k else if k < 19 then op.getLsbD (k - 16)
      else if k = 19 then s else if k = 20 then e else if k = 21 then m else if k = 22 then p
      else if k = 23 then l else if k < 26 then r.getLsbD (k - 24) else false := by
  by_cases hk : k < 32
  · simp only [commandOf, BitVec.getLsbD_append]
    interval_cases k <;> simp
  · rw [BitVec.getLsbD_of_ge _ k (by omega)]
    split_ifs <;> first | rfl | omega

section
variable (r : BitVec 2) (l p m e s : Bool) (op : BitVec 3) (d : Word)

theorem commandOf_x : (commandOf r l p m e s op d).x = 0 := by
  apply BitVec.eq_of_getLsbD_eq
  intro k hk
  simp only [Command.x, BitVec.getLsbD_extractLsb', commandOf_bit]
  interval_cases k <;> simp

theorem commandOf_op : (commandOf r l p m e s op d).op = op := by
  apply BitVec.eq_of_getLsbD_eq
  intro k hk
  simp only [Command.op, BitVec.getLsbD_extractLsb', commandOf_bit]
  interval_cases k <;> simp

theorem commandOf_d : (commandOf r l p m e s op d).d = d := by
  apply BitVec.eq_of_getLsbD_eq
  intro k hk
  simp only [Command.d, BitVec.getLsbD_extractLsb', commandOf_bit]
  simp [hk]

theorem commandOf_r : (commandOf r l p m e s op d).r = r := by
  apply BitVec.eq_of_getLsbD_eq
  intro k hk
  simp only [Command.r, BitVec.getLsbD_extractLsb', commandOf_bit]
  interval_cases k <;> simp

theorem commandOf_s : (commandOf r l p m e s op d).s = s := by rw [Command.s, commandOf_bit]; rfl
theorem commandOf_e : (commandOf r l p m e s op d).e = e := by rw [Command.e, commandOf_bit]; rfl
theorem commandOf_m : (commandOf r l p m e s op d).m = m := by rw [Command.m, commandOf_bit]; rfl
theorem commandOf_p : (commandOf r l p m e s op d).p = p := by rw [Command.p, commandOf_bit]; rfl
theorem commandOf_l : (commandOf r l p m e s op d).l = l := by rw [Command.l, commandOf_bit]; rfl

end

end Sys2Proof
end

