-- ==== Sys2Proof/Laws/State.lean ====
section
/-! SUPPORT. One lemma per field per update of State and of the per-register values, each true by unfolding. -/

namespace Sys2Proof.Machine

/-! ### driveOutputs -/

@[simp] theorem driveOutputs_layout (p : Ports) (s : State) : (driveOutputs p s).layout = s.layout := rfl
@[simp] theorem driveOutputs_map (p : Ports) (s : State) : (driveOutputs p s).map = s.map := rfl
@[simp] theorem driveOutputs_cmd (p : Ports) (s : State) : (driveOutputs p s).cmd = s.cmd := rfl
@[simp] theorem driveOutputs_out (p : Ports) (s : State) : (driveOutputs p s).out = some p := rfl
@[simp] theorem driveOutputs_sensor (p : Ports) (s : State) : (driveOutputs p s).sensor = s.sensor := rfl
@[simp] theorem driveOutputs_held (p : Ports) (s : State) : (driveOutputs p s).held = s.held := rfl
@[simp] theorem driveOutputs_busError (p : Ports) (s : State) : (driveOutputs p s).busError = s.busError := rfl
@[simp] theorem driveOutputs_pending (p : Ports) (s : State) : (driveOutputs p s).pending = s.pending := rfl

/-! ### latchCommand -/

@[simp] theorem latchCommand_layout (c : Command) (s : State) : (latchCommand c s).layout = s.layout := rfl
@[simp] theorem latchCommand_map (c : Command) (s : State) : (latchCommand c s).map = s.map := rfl
@[simp] theorem latchCommand_out (c : Command) (s : State) : (latchCommand c s).out = s.out := rfl
@[simp] theorem latchCommand_sensor (c : Command) (s : State) : (latchCommand c s).sensor = s.sensor := rfl
@[simp] theorem latchCommand_held (c : Command) (s : State) : (latchCommand c s).held = s.held := rfl
@[simp] theorem latchCommand_busError (c : Command) (s : State) : (latchCommand c s).busError = s.busError := rfl
@[simp] theorem latchCommand_pending (c : Command) (s : State) : (latchCommand c s).pending = s.pending := rfl
@[simp] theorem latchCommand_cmd (c : Command) (s : State) : (latchCommand c s).cmd = some c := rfl

/-! ### overtakeRead -/

@[simp] theorem overtakeRead_layout (n : SensorReg) (s : State) : (overtakeRead n s).layout = s.layout := rfl
@[simp] theorem overtakeRead_map (n : SensorReg) (s : State) : (overtakeRead n s).map = s.map := rfl
@[simp] theorem overtakeRead_cmd (n : SensorReg) (s : State) : (overtakeRead n s).cmd = s.cmd := rfl
@[simp] theorem overtakeRead_out (n : SensorReg) (s : State) : (overtakeRead n s).out = s.out := rfl
@[simp] theorem overtakeRead_sensor (n : SensorReg) (s : State) : (overtakeRead n s).sensor = s.sensor := rfl
@[simp] theorem overtakeRead_held (n : SensorReg) (s : State) :
    (overtakeRead n s).held = regSet s.held n ((regGet s.held n).map Held.stale) := rfl
@[simp] theorem overtakeRead_busError (n : SensorReg) (s : State) : (overtakeRead n s).busError = s.busError := rfl
@[simp] theorem overtakeRead_pending (n : SensorReg) (s : State) : (overtakeRead n s).pending = s.pending := rfl

/-! ### storeRegister -/

@[simp] theorem storeRegister_layout (n : SensorReg) (w : Word) (s : State) :
    (storeRegister n w s).layout = s.layout := rfl
@[simp] theorem storeRegister_map (n : SensorReg) (w : Word) (s : State) : (storeRegister n w s).map = s.map := rfl
@[simp] theorem storeRegister_cmd (n : SensorReg) (w : Word) (s : State) : (storeRegister n w s).cmd = s.cmd := rfl
@[simp] theorem storeRegister_out (n : SensorReg) (w : Word) (s : State) : (storeRegister n w s).out = s.out := rfl
@[simp] theorem storeRegister_sensor (n : SensorReg) (w : Word) (s : State) :
    (storeRegister n w s).sensor = regSet s.sensor n w := rfl
@[simp] theorem storeRegister_held (n : SensorReg) (w : Word) (s : State) :
    (storeRegister n w s).held = regSet s.held n ((regGet s.held n).map Held.stale) := rfl
@[simp] theorem storeRegister_busError (n : SensorReg) (w : Word) (s : State) :
    (storeRegister n w s).busError = s.busError := rfl
@[simp] theorem storeRegister_pending (n : SensorReg) (w : Word) (s : State) :
    (storeRegister n w s).pending = s.pending := rfl

/-! ### holdWord -/

@[simp] theorem holdWord_layout (n : SensorReg) (w : Word) (s : State) : (holdWord n w s).layout = s.layout := rfl
@[simp] theorem holdWord_map (n : SensorReg) (w : Word) (s : State) : (holdWord n w s).map = s.map := rfl
@[simp] theorem holdWord_cmd (n : SensorReg) (w : Word) (s : State) : (holdWord n w s).cmd = s.cmd := rfl
@[simp] theorem holdWord_out (n : SensorReg) (w : Word) (s : State) : (holdWord n w s).out = s.out := rfl
@[simp] theorem holdWord_sensor (n : SensorReg) (w : Word) (s : State) : (holdWord n w s).sensor = s.sensor := rfl
@[simp] theorem holdWord_held (n : SensorReg) (w : Word) (s : State) :
    (holdWord n w s).held = regSet s.held n (some { word := w, fresh := true }) := rfl
@[simp] theorem holdWord_busError (n : SensorReg) (w : Word) (s : State) :
    (holdWord n w s).busError = s.busError := rfl
@[simp] theorem holdWord_pending (n : SensorReg) (w : Word) (s : State) :
    (holdWord n w s).pending = s.pending := rfl

/-! ### dropHeld -/

@[simp] theorem dropHeld_layout (n : SensorReg) (s : State) : (dropHeld n s).layout = s.layout := rfl
@[simp] theorem dropHeld_map (n : SensorReg) (s : State) : (dropHeld n s).map = s.map := rfl
@[simp] theorem dropHeld_cmd (n : SensorReg) (s : State) : (dropHeld n s).cmd = s.cmd := rfl
@[simp] theorem dropHeld_out (n : SensorReg) (s : State) : (dropHeld n s).out = s.out := rfl
@[simp] theorem dropHeld_sensor (n : SensorReg) (s : State) : (dropHeld n s).sensor = s.sensor := rfl
@[simp] theorem dropHeld_held (n : SensorReg) (s : State) : (dropHeld n s).held = regSet s.held n none := rfl
@[simp] theorem dropHeld_busError (n : SensorReg) (s : State) : (dropHeld n s).busError = s.busError := rfl
@[simp] theorem dropHeld_pending (n : SensorReg) (s : State) : (dropHeld n s).pending = s.pending := rfl

/-! ### setBusError -/

@[simp] theorem setBusError_layout (b : Bool) (s : State) : (setBusError b s).layout = s.layout := rfl
@[simp] theorem setBusError_map (b : Bool) (s : State) : (setBusError b s).map = s.map := rfl
@[simp] theorem setBusError_cmd (b : Bool) (s : State) : (setBusError b s).cmd = s.cmd := rfl
@[simp] theorem setBusError_out (b : Bool) (s : State) : (setBusError b s).out = s.out := rfl
@[simp] theorem setBusError_sensor (b : Bool) (s : State) : (setBusError b s).sensor = s.sensor := rfl
@[simp] theorem setBusError_held (b : Bool) (s : State) : (setBusError b s).held = s.held := rfl
@[simp] theorem setBusError_busError (b : Bool) (s : State) : (setBusError b s).busError = b := rfl
@[simp] theorem setBusError_pending (b : Bool) (s : State) : (setBusError b s).pending = s.pending := rfl

/-! ### The state after an illegal command is that of a command whose ports are all 0 -/

theorem afterIllegalCommand_eq (c : Command) (s : State) :
    afterIllegalCommand c s = driveOutputs portsZero (latchCommand c s) := rfl

/-! ### Per-register values -/

@[simp] theorem regGet_regSet_same {α : Type} (v : PerReg α) (n : SensorReg) (x : α) :
    regGet (regSet v n x) n = x := by
  cases n <;> rfl

@[simp] theorem regSet_regSet {α : Type} (v : PerReg α) (n : SensorReg) (x y : α) :
    regSet (regSet v n x) n y = regSet v n y := by
  cases n <;> rfl

theorem regGet_regSet_other {α : Type} (v : PerReg α) (n k : SensorReg) (x : α) (h : k ≠ n) :
    regGet (regSet v n x) k = regGet v k := by
  cases n <;> cases k <;> first | rfl | exact absurd rfl h

@[simp] theorem Held.stale_fresh (h : Held) : (Held.stale h).fresh = false := rfl
@[simp] theorem Held.stale_word (h : Held) : (Held.stale h).word = h.word := rfl

end Sys2Proof.Machine
end

