-- ==== Sys2Proof/Laws/Exec.lean ====
section
/-! SUPPORT. What running a command can do, said once: `exec` drives the ports with the command's result, and presenting
a word either does that or raises IllegalCommand. -/

namespace Sys2Proof.Machine

theorem complete_eq (p : Ports) (s : State) : complete p s = .next (driveOutputs p s) := rfl

/-- Every command completes, and all it does is to drive the ports with its result. -/
theorem exec_eq (i : Instr) (s : State) : exec i s = .next (driveOutputs (portsOf s.layout i) s) := by
  cases i <;> rfl

theorem evaluate_of_legal (L : CfgLayout) {cmd : Command} {i : Instr} (h : decode cmd = .legal i) :
    evaluate L cmd = portsOf L i := by
  simp only [evaluate, h]

theorem evaluate_of_illegal (L : CfgLayout) {cmd c : Command} (h : decode cmd = .illegalCommand c) :
    evaluate L cmd = portsZero := by
  simp only [evaluate, h]

/-- The word an illegal command keeps is the word presented. -/
theorem decode_illegal_word {cmd c : Command} (h : decode cmd = .illegalCommand c) : c = cmd := by
  unfold decode decodeOp at h
  split_ifs at h <;> cases h <;> rfl

theorem presentCommand_of_legal {cmd : Command} {i : Instr} (h : decode cmd = .legal i) (s : State) :
    presentCommand cmd s = .next (driveOutputs (portsOf s.layout i) (latchCommand cmd s)) := by
  simp only [presentCommand, h]; exact exec_eq i _

theorem presentCommand_of_illegal {cmd c : Command} (h : decode cmd = .illegalCommand c) (s : State) :
    presentCommand cmd s = .fault (.illegalCommand cmd) := by
  simp only [presentCommand, h, raiseIllegalCommand, decode_illegal_word h]

end Sys2Proof.Machine
end

