-- ==== Sys2Proof/Laws/Moves.lean ====
section
/-! SUPPORT. What a move that answers a next state can have done, one lemma per kind of move and one for a step. -/

namespace Sys2Proof.Machine

theorem operandOfBytes_bytesOfWord (w : Word) : operandOfBytes (bytesOfWord w) = some w := by
  simp only [bytesOfWord, operandOfBytes, Option.some.injEq]
  ext k hk
  simp only [← BitVec.getLsbD_eq_getElem, BitVec.getLsbD_append, BitVec.getLsbD_extractLsb']
  by_cases h : k < 8
  · simp [h]
  · have h1 : k - 8 < 8 := by omega
    have h2 : 8 + (k - 8) = k := by omega
    simp [h, h1, h2]

theorem readRegister_next {device register : Nat} {reply : ReadReply} {s t : State}
    (h : readRegister device register reply s = .next t) :
    ∃ n, resolve s.map device register = some n ∧ reply = .bytes 2 ∧
      t = setBusError false (holdWord n (regGet s.sensor n) s) := by
  unfold readRegister at h
  split at h
  · cases h
  · rename_i n hn
    split at h
    · cases h
    · rename_i count
      split at h
      · rename_i hc
        subst hc
        simp only [receiveWord, operandOfBytes_bytesOfWord] at h
        cases h
        exact ⟨n, hn, rfl, rfl⟩
      · cases h

theorem writeRegister_next {device register : Nat} {bytes : List Byte} {done : Bool} {s t : State}
    (h : writeRegister device register bytes done s = .next t) :
    ∃ n w, resolve s.map device register = some n ∧ operandOfBytes bytes = some w ∧
      ((done = true ∧ t = setBusError false (storeRegister n w s)) ∨ (done = false ∧ t = setBusError true (overtakeRead n s))) := by
  unfold writeRegister at h
  split at h
  · cases h
  · rename_i n hn
    split at h
    · cases h
    · rename_i w hw
      cases done with
      | true => cases h; exact ⟨n, w, hn, hw, .inl ⟨rfl, rfl⟩⟩
      | false => cases h; exact ⟨n, w, hn, hw, .inr ⟨rfl, rfl⟩⟩

theorem presentCommand_next {cmd : Command} {s t : State} (h : presentCommand cmd s = .next t) :
    ∃ i, decode cmd = .legal i ∧ t = driveOutputs (portsOf s.layout i) (latchCommand cmd s) := by
  cases hd : decode cmd with
  | legal i =>
    rw [presentCommand_of_legal hd] at h
    cases h
    exact ⟨i, rfl, rfl⟩
  | illegalCommand c =>
    rw [presentCommand_of_illegal hd] at h
    cases h

/-- A host that goes on after any word, legal or not, finds that word's result on the ports and nothing else changed. -/
theorem carryOn_command (cmd : Command) (s : State) :
    carryOn (.command cmd) s = driveOutputs (evaluate s.layout cmd) (latchCommand cmd s) := by
  cases h : decode cmd with
  | legal i => simp only [carryOn, perform, presentCommand_of_legal h, evaluate_of_legal _ h]
  | illegalCommand c =>
    simp only [carryOn, perform, presentCommand_of_illegal h, evaluate_of_illegal _ h, afterStop,
      afterIllegalCommand_eq]

/-- A step that answers a next state performed the first pending move. -/
theorem step_next {s t : State} (h : step s = .next t) :
    ∃ m rest, s.pending = m :: rest ∧ perform m { s with pending := rest } = .next t := by
  unfold step at h
  split at h
  · cases h
  · rename_i m rest hp
    exact ⟨m, rest, hp, h⟩

theorem step_cons {s : State} {m : HostMove} {rest : List HostMove} (h : s.pending = m :: rest) :
    step s = perform m { s with pending := rest } := by
  simp only [step, h]

end Sys2Proof.Machine
end

