-- ==== Sys2Proof/Laws/Duties.lean ====
section
/-! SUPPORT. What it takes to meet a duty of the host, one lemma per check, and where a word the host holds comes from. -/

namespace Sys2Proof.Safety

open Sys2Proof.Machine

theorem hasRead_iff (s : State) (i : Instr) :
    hasRead s i = true ↔ ∃ n h, takesWordOf i n = true ∧ regGet s.held n = some h ∧ h.word = dataOf i ∧
      (writesConfig i = true → h.fresh = true) := by
  have all : ∀ n, n ∈ SensorReg.all := by intro n; cases n <;> decide
  simp only [hasRead, List.any_eq_true, Bool.and_eq_true]
  constructor
  · rintro ⟨n, -, hk, h⟩
    cases hh : regGet s.held n with
    | none => simp [hh] at h
    | some x =>
      refine ⟨n, x, hk, hh, ?_⟩
      simp only [hh, Bool.and_eq_true, Bool.or_eq_true, beq_iff_eq] at h
      exact ⟨h.1, fun hw => by simpa [hw] using h.2⟩
  · rintro ⟨n, x, hk, hh, hd, hf⟩
    refine ⟨n, all n, hk, ?_⟩
    cases hw : writesConfig i <;> simp_all

theorem commandMeetsDuty_iff (s : State) (cmd : Command) :
    commandMeetsDuty s cmd = true ↔ ∃ i, decode cmd = .legal i ∧ hasRead s i = true := by
  cases h : decode cmd <;> simp [commandMeetsDuty, h]

theorem writesBackResult_spec {s : State} {n : SensorReg} {bytes : List Byte} (h : writesBackResult s n bytes = true) :
    ∃ cmd p x i, s.cmd = some cmd ∧ s.out = some p ∧ regGet s.held n = some x ∧ decode cmd = .legal i ∧
      writesConfig i = true ∧ takesWordOf i n = true ∧ x.fresh = true ∧ dataOf i = x.word ∧
      bytes = bytesOfWord p.word := by
  unfold writesBackResult at h
  split at h
  · rename_i cmd p x hc hp hx
    split at h
    · rename_i i hi
      simp only [Bool.and_eq_true, beq_iff_eq] at h
      obtain ⟨⟨⟨⟨⟨hw, hk⟩, -⟩, hf⟩, hd⟩, hb⟩ := h
      exact ⟨cmd, p, x, i, hc, hp, hx, hi, hw, hk, hf, hd, hb⟩
    · cases h
  · cases h

/-- The registers a writing operation may take its word from, and so write back to. -/
theorem takesWordOf_writing {i : Instr} {n : SensorReg} (h : writesConfig i = true) :
    takesWordOf i n = true ↔ n = .configuration ∨ (n = .resolution ∧ ∃ d r, i = .setRes d r) := by
  cases i <;> cases n <;> simp_all [takesWordOf, writesConfig]

/-- The words held after register `n`'s is no longer a word just read are the same words. -/
theorem held_overtaken {v : PerReg (Option Held)} {n k : SensorReg} {x : Held}
    (h : regGet (regSet v n ((regGet v n).map Held.stale)) k = some x) :
    ∃ y, regGet v k = some y ∧ y.word = x.word ∧ (x.fresh = true → y.fresh = true) := by
  by_cases hk : k = n
  · subst hk
    rw [regGet_regSet_same, Option.map_eq_some_iff] at h
    obtain ⟨y, hy, rfl⟩ := h
    exact ⟨y, hy, rfl, fun hf => absurd hf Bool.false_ne_true⟩
  · rw [regGet_regSet_other _ _ _ _ hk] at h
    exact ⟨x, h, rfl, id⟩

/-- The words held after register `n`'s is dropped were held before. -/
theorem held_dropped {v : PerReg (Option Held)} {n k : SensorReg} {x : Held}
    (h : regGet (regSet v n none) k = some x) : ∃ y, regGet v k = some y ∧ y.word = x.word ∧ (x.fresh = true → y.fresh = true) := by
  by_cases hk : k = n
  · subst hk; rw [regGet_regSet_same] at h; cases h
  · rw [regGet_regSet_other _ _ _ _ hk] at h
    exact ⟨x, h, rfl, id⟩

/-- A host that goes on after a stop holds no word it did not hold before. -/
theorem afterStop_held {m : HostMove} {s : State} {n : SensorReg} {x : Held}
    (h : regGet (afterStop m s).held n = some x) :
    ∃ y, regGet s.held n = some y ∧ y.word = x.word ∧ (x.fresh = true → y.fresh = true) := by
  cases m with
  | command cmd => exact ⟨x, h, rfl, id⟩
  | read device register reply =>
    simp only [afterStop] at h
    split at h
    · exact ⟨x, h, rfl, id⟩
    · split at h
      · exact held_dropped h
      · exact held_dropped h
  | write device register bytes done => exact ⟨x, h, rfl, id⟩
  | otherWrite k w => exact ⟨x, h, rfl, id⟩
  | converts w => exact ⟨x, h, rfl, id⟩

/-- A word the host holds after a move is one it held before (and just read now only if it was then), or the move was a
read that gave it that word. -/
theorem carryOn_held {m : HostMove} {s : State} {n : SensorReg} {x : Held}
    (h : regGet (carryOn m s).held n = some x) :
    (∃ y, regGet s.held n = some y ∧ y.word = x.word ∧ (x.fresh = true → y.fresh = true)) ∨
    (∃ device register, m = .read device register (.bytes 2) ∧ resolve s.map device register = some n ∧
      regGet s.sensor n = x.word) := by
  unfold carryOn at h
  split at h
  · rename_i t ht
    cases m with
    | command cmd =>
      obtain ⟨i, -, rfl⟩ := presentCommand_next ht
      exact .inl ⟨x, h, rfl, id⟩
    | read device register reply =>
      obtain ⟨k, hk, rfl, rfl⟩ := readRegister_next ht
      rw [setBusError_held, holdWord_held] at h
      by_cases hn : n = k
      · subst hn
        rw [regGet_regSet_same] at h
        cases h
        exact .inr ⟨device, register, rfl, hk, rfl⟩
      · rw [regGet_regSet_other _ _ _ _ hn] at h
        exact .inl ⟨x, h, rfl, id⟩
    | write device register bytes done =>
      obtain ⟨k, w, -, -, ⟨-, rfl⟩ | ⟨-, rfl⟩⟩ := writeRegister_next ht <;> exact .inl (held_overtaken h)
    | otherWrite k w => cases ht; exact .inl (held_overtaken h)
    | converts w => cases ht; exact .inl (held_overtaken h)
  · exact .inl (afterStop_held h)
  · exact .inl (afterStop_held h)

end Sys2Proof.Safety
end

