-- ==== Sys2Proof/Laws/PerInstr.lean ====
section
/-! SUPPORT. One fact for every constructor of Instr: the word the assembler makes of it lies in its row of the opcode
table (30_encoding.md R45). -/

namespace Sys2Proof.Laws.InRow

/-- The encoded word matches its row under the table's mask (R45). -/
def Statement (i : Instr) : Prop := encode i &&& opcodeMask = (opOf i).setWidth 32 <<< 16

/-- Under the table's mask a word laid out by R37 with `X` = 0 keeps its `OP` alone. -/
theorem commandOf_masked (r : BitVec 2) (l p m e s : Bool) (op : BitVec 3) (d : Word) :
    commandOf r l p m e s op d &&& opcodeMask = op.setWidth 32 <<< 16 := by
  ext k hk
  simp only [commandOf, opcodeMask, ← BitVec.getLsbD_eq_getElem, BitVec.getLsbD_and, BitVec.getLsbD_append,
    BitVec.getLsbD_shiftLeft, BitVec.getLsbD_setWidth, BitVec.getLsbD_zero]
  interval_cases k <;> simp

theorem decodeTemp (d : Word) : Statement (.decodeTemp d) := commandOf_masked ..
theorem unpackCfg (d : Word) : Statement (.unpackCfg d) := commandOf_masked ..
theorem packCfg (d : Word) (s e m p l : Bool) (r : ResMode) : Statement (.packCfg d s e m p l r) :=
  commandOf_masked ..
theorem enterShdn (d : Word) : Statement (.enterShdn d) := commandOf_masked ..
theorem exitShdn (d : Word) : Statement (.exitShdn d) := commandOf_masked ..
theorem setRes (d : Word) (r : ResMode) : Statement (.setRes d r) := commandOf_masked ..
theorem setAlert (d : Word) (e m p l : Bool) : Statement (.setAlert d e m p l) := commandOf_masked ..

end Sys2Proof.Laws.InRow
end

