-- ==== Sys2Proof/Laws/Temperature.lean ====
section
/-! SUPPORT. The decoder's pieces as numbers (40_temperature_decode.md R50; 00_scope.md R8). -/

namespace Sys2Proof.Machine

theorem tempMagnitude_toNat (d : Word) : (tempMagnitude d).toNat = d.toNat % 4096 := by
  simp [tempMagnitude, BitVec.extractLsb'_toNat]

/-- A shift by 4 divides by 16. -/
theorem tempDegrees_toNat (d : Word) : (tempDegrees d).toNat = d.toNat % 4096 / 16 := by
  simp [tempDegrees, tempMagnitude_toNat, Nat.shiftRight_eq_div_pow]
  omega

/-- A mask by 0xF is the remainder by 16. -/
theorem tempSixteenths_toNat (d : Word) : (tempSixteenths d).toNat = d.toNat % 16 := by
  have h : tempSixteenths d = (tempMagnitude d).setWidth 4 := by
    apply BitVec.eq_of_getLsbD_eq
    intro k hk
    simp only [tempSixteenths, BitVec.getLsbD_setWidth, BitVec.getLsbD_and]
    interval_cases k <;> simp
  rw [h]
  simp [tempMagnitude_toNat]

/-- The signed value by comparison instead of by the sign bit. -/
theorem sv_eq_of_toNat (w : Word) : sv w = if 32768 ≤ w.toNat then (w.toNat : Int) - 65536 else w.toNat := by
  have h : w.getLsbD 15 = decide (32768 ≤ w.toNat) := by
    have := BitVec.msb_eq_decide w
    simpa [BitVec.msb, BitVec.getMsbD] using this
  unfold sv
  rw [h]
  simp only [decide_eq_true_eq]

end Sys2Proof.Machine
end

