-- ==== Sys2Proof/Machine/Meaning.lean ====
section
/-! DEFINITION. What the fields mean to the sensor (10_state.md R21, R22, R23). The block only moves the bits: no rule of
the block, and no other definition of the model, depends on these. -/

namespace Sys2Proof.Machine

/-- `SHDN` (R21): 1 is shutdown. -/
inductive Conversion where
  | continuous
  | shutdown
deriving DecidableEq, Repr

/-- `AMOD` (R21): 1 is the interrupt output. -/
inductive AlertOutput where
  | comparator
  | interrupt
deriving DecidableEq, Repr

/-- `APOL` (R21): 1 is active-high. -/
inductive AlertPolarity where
  | activeLow
  | activeHigh
deriving DecidableEq, Repr

/-- A configuration word as the sensor understands it (R21). What the two values of `selector` select is not in the
source. -/
structure Settings where
  conversion : Conversion
  alertOn    : Bool
  output     : AlertOutput
  polarity   : AlertPolarity
  selector   : Bool
  resolution : ResMode
deriving DecidableEq, Repr

/-- The settings a configuration word holds under a layout (R21, R22). -/
def settingsOf (L : CfgLayout) (w : Word) : Settings where
  conversion := if get1 w L.pos.shdn then .shutdown else .continuous
  alertOn := get1 w L.pos.aen
  output := if get1 w L.pos.amod then .interrupt else .comparator
  polarity := if get1 w L.pos.apol then .activeHigh else .activeLow
  selector := get1 w L.pos.asel
  resolution := ResMode.ofCode (getRes L w)

/-- The resolution of a mode, in sixteenths of a degree (R23): ±0.5, ±0.25, ±0.125, ±0.0625 °C. -/
def resolutionSixteenths : ResMode → Nat
  | .min => 8
  | .low => 4
  | .avg => 2
  | .max => 1

/-- The conversion time of a mode in milliseconds (R23, R92). -/
def conversionMs : ResMode → Nat
  | .min => 30
  | .low => 65
  | .avg => 130
  | .max => 250

/-- The samples per second of a mode (R23, R92). -/
def samplesPerSecond : ResMode → Nat
  | .min => 33
  | .low => 15
  | .avg => 7
  | .max => 4

end Sys2Proof.Machine
end

