-- ==== Sys2Proof/Tests/Slice0.lean ====
section
/-! SUPPORT. The model's own tests: words, results and faults of 95_test_vectors.md (each test names its vector), the
ill-formed terms each check refuses, and for each statement with hypotheses a witness that meets them. -/

namespace Sys2Proof.Tests

open Sys2Proof.Machine Sys2Proof.Safety Sys2Proof.Claims

/-! ### A small state, and what a test looks at -/

/-- A sensor behind five addresses of device 24, with a given configuration and temperature word, and the given moves
pending. -/
def bench (config temp : Word) (pending : List HostMove) : State where
  layout := layoutDefault
  map := { device := 24
           registers := [(1, .configuration), (2, .upperBoundary), (3, .lowerBoundary), (5, .temperature),
             (8, .resolution)] }
  cmd := none
  out := none
  sensor := { temperature := temp, configuration := config, resolution := 3, upperBoundary := 0, lowerBoundary := 0 }
  held := ⟨none, none, none, none, none⟩
  busError := false
  pending := pending

/-- The ports after one step, if it answers a next state. -/
def outAfter (s : State) : Option Ports :=
  match step s with
  | .next t => t.out
  | .fault _ => none
  | .refused _ => none

/-- The fault of one step. -/
def faultOf (s : State) : Option Fault :=
  match step s with
  | .next _ => none
  | .fault f => some f
  | .refused _ => none

/-- The refusal of one step. -/
def refusalOf (s : State) : Option Refusal :=
  match step s with
  | .next _ => none
  | .fault _ => none
  | .refused r => some r

/-- The ports after presenting one word to the bench. -/
def run (cmd : Command) : Option Ports := outAfter (bench 0 0 [.command cmd])

/-- A legal layout at the top of the word: RES at 15:14. -/
def layoutHigh : CfgLayout where
  pos := { shdn := 0, aen := 1, amod := 2, apol := 3, asel := 13, res := 14 }

/-! ### Well-formedness: an ill-formed term for each check -/

theorem test_wf_reserved_bit : Command.wellFormed 0x04000190#32 = false := by decide
theorem test_wf_op_seven : Command.wellFormed 0x00071234#32 = false := by decide
theorem test_wf_legal_word : Command.wellFormed 0x03FEFFFF#32 = true := by decide
theorem test_wf_line_d16 : (AsmLine.decodeTemp 65536).wellFormed = false := by decide
theorem test_wf_line_flag : (AsmLine.setAlert 0 1 2 0 0).wellFormed = false := by decide
theorem test_wf_line_res : (AsmLine.setRes 0 4).wellFormed = false := by decide
theorem test_wf_line_byte : (AsmLine.decodeBytes 1 256).wellFormed = false := by decide
theorem test_wf_line_top : (AsmLine.packCfg 65535 1 1 1 1 1 3).wellFormed = true := by decide
theorem test_layout_overlap :
    Positions.legal { shdn := 12, aen := 3, amod := 0, apol := 1, asel := 2, res := 11 } = false := by decide
theorem test_layout_res_top :
    Positions.legal { shdn := 8, aen := 3, amod := 0, apol := 1, asel := 2, res := 15 } = false := by decide
theorem test_layout_high : layoutHigh.pos.legal = true := by decide

/-! ### Decoding: words written out field by field from 30_encoding.md R37 (X R L P M E S OP D) -/

theorem test_decode_decodeTemp :
    decode (0b000000#6 ++ 0b00#2 ++ 0b0#1 ++ 0b0#1 ++ 0b0#1 ++ 0b0#1 ++ 0b0#1 ++ 0b000#3 ++ 0x1014#16) =
      .legal (.decodeTemp 0x1014#16) := by decide
theorem test_decode_unpackCfg :
    decode (0b000000#6 ++ 0b00#2 ++ 0b0#1 ++ 0b0#1 ++ 0b0#1 ++ 0b0#1 ++ 0b0#1 ++ 0b001#3 ++ 0x1906#16) =
      .legal (.unpackCfg 0x1906#16) := by decide
theorem test_decode_packCfg :
    decode (0b000000#6 ++ 0b10#2 ++ 0b1#1 ++ 0b0#1 ++ 0b1#1 ++ 0b0#1 ++ 0b1#1 ++ 0b010#3 ++ 0xE6F0#16) =
      .legal (.packCfg 0xE6F0#16 true false true false true .avg) := by decide
theorem test_decode_packCfg_asymmetric :
    decode 0x01520403#32 = .legal (.packCfg 0x0403#16 false true false true false .low) := by decide
theorem test_decode_enterShdn : decode 0x00031806#32 = .legal (.enterShdn 0x1806#16) := by decide
theorem test_decode_exitShdn : decode 0x00041906#32 = .legal (.exitShdn 0x1906#16) := by decide
theorem test_decode_setRes : decode 0x02050403#32 = .legal (.setRes 0x0403#16 .avg) := by decide
theorem test_decode_setAlert :
    decode 0x00A6E6F0#32 = .legal (.setAlert 0xE6F0#16 false true false true) := by decide
theorem test_decode_ignored_fields : decode 0x03F80190#32 = .legal (.decodeTemp 0x0190#16) := by decide
theorem test_decode_op_seven : decode 0x00071234#32 = .illegalCommand 0x00071234#32 := by decide
theorem test_decode_x31 : decode 0x80020000#32 = .illegalCommand 0x80020000#32 := by decide

theorem test_encode_packCfg : encode (.packCfg 0xE6F0#16 true false true false true .avg) = 0x02AAE6F0#32 := by decide
theorem test_encode_setAlert : encode (.setAlert 0x1906#16 true true false false) = 0x00361906#32 := by decide

theorem test_table_word : decodeTableWord 32 0x03050403 = some (.setRes 0x0403#16 .max) := by decide
theorem test_table_word_illegal : decodeTableWord 32 0x00070000 = none := by decide

/-- The first step after reset runs the word presented. -/
theorem test_reset_runs_setRes :
    outAfter (State.reset.withFetchWord 32 0x03050403) = some (onlyWord 0x1C03#16) := by decide

/-! ### Results (95_test_vectors.md section 2) -/

/-- TD14: -1.25 °C. -/
theorem test_decodeTemp_td14 :
    run 0x00001014#32 = some { allZero with ok := true, neg := true, dec := 0xFFFF, frac := 4 } := by decide
/-- TD20: all ones, bits 15:13 ignored. -/
theorem test_decodeTemp_td20 :
    run 0x0000FFFF#32 = some { allZero with ok := true, neg := true, dec := 0xFF01, frac := 15 } := by decide
/-- TU14. -/
theorem test_unpackCfg_tu14 :
    run 0x00011906#32 =
      some { allZero with ok := true, s := true, e := false, m := false, p := true, l := true, r := 3 } := by decide
/-- TU11: RES = AVG. -/
theorem test_unpackCfg_tu11 : run 0x00011000#32 = some { allZero with ok := true, r := 2 } := by decide
/-- TP5. -/
theorem test_packCfg_tp5 : run 0x02AAE6F0#32 = some (onlyWord 0xF7F5) := by decide
/-- TP6. -/
theorem test_packCfg_tp6 : run 0x01520403#32 = some (onlyWord 0x0C0A) := by decide
/-- TS3. -/
theorem test_enterShdn_ts3 : run 0x00031806#32 = some (onlyWord 0x1906) := by decide
/-- TS2: already in shutdown. -/
theorem test_enterShdn_ts2 : run 0x00030100#32 = some (onlyWord 0x0100) := by decide
/-- TS4. -/
theorem test_exitShdn_ts4 : run 0x00041906#32 = some (onlyWord 0x1806) := by decide
/-- TS6. -/
theorem test_exitShdn_ts6 : run 0x0004FFFF#32 = some (onlyWord 0xFEFF) := by decide
/-- TR7. -/
theorem test_setRes_tr7 : run 0x0205FFFF#32 = some (onlyWord 0xF7FF) := by decide
/-- TR17: ignored fields set. -/
theorem test_setRes_tr17 : run 0x03FD0403#32 = some (onlyWord 0x1C03) := by decide
/-- TA4. -/
theorem test_setAlert_ta4 : run 0x00361906#32 = some (onlyWord 0x1909) := by decide
/-- TA7: S and R ignored. -/
theorem test_setAlert_ta7 : run 0x033E1906#32 = some (onlyWord 0x1909) := by decide

/-! ### The fault, and the host's moves -/

/-- TX2. -/
theorem test_illegal_tx2 :
    faultOf (bench 0 0 [.command 0x04000190#32]) = some (.illegalCommand 0x04000190#32) := by decide
/-- TX4: both conditions, one fault. -/
theorem test_illegal_tx4 :
    faultOf (bench 0 0 [.command 0xFC070000#32]) = some (.illegalCommand 0xFC070000#32) := by decide
theorem test_nothing_presented : refusalOf (bench 0 0 []) = some .nothingPresented := by decide
theorem test_read_three_bytes :
    refusalOf (bench 0 0 [.read 24 1 (.bytes 3)]) = some .readNotTwoBytes := by decide
theorem test_read_failed : refusalOf (bench 0 0 [.read 24 1 .failed]) = some .readFailed := by decide
theorem test_read_unmapped : refusalOf (bench 0 0 [.read 24 4 (.bytes 2)]) = some .unmappedRegister := by decide
theorem test_write_one_byte : refusalOf (bench 0 0 [.write 24 1 [0x19#8] true]) = some .writeNotTwoBytes := by decide

/-- Program P2 (95_test_vectors.md section 3): the branch taken, steps 1, 2, 4, 5. -/
theorem test_program_p2 :
    (runMoves [.read 24 1 (.bytes 2), .command 0x00010403#32, .command 0x03050403#32,
      .write 24 1 [0x1C#8, 0x03#8] true] (bench 0x0403 0 [])).2.sensor.configuration = 0x1C03#16 := by decide

/-- Program P4 steps 2 and 4: a rejected command, then the legal one. -/
theorem test_program_p4 :
    (runMoves [.command 0x8372E6F0#32, .command 0x0372E6F0#32] (bench 0xE6F0 0 [])).1 =
      [allZero, onlyWord 0xFEFB] := by decide

/-! ### The assembler (30_encoding.md R48, R49) -/

theorem test_asm_packCfg :
    assembleText "pack_cfg 0xE6F0, 1, 0, 1, 0, 1, AVG ; TP5".toList = some 0x02AAE6F0#32 := by decide
theorem test_asm_decodeBytes : assembleText "DECODE_BYTES 0x01, 0x90".toList = some 0x00000190#32 := by decide
theorem test_asm_decimal : assembleText "SET_RES 1027, 3".toList = some 0x03050403#32 := by decide
theorem test_asm_flag_two : assembleText "SET_ALERT 0x1906, 2, 1, 0, 0".toList = none := by decide
theorem test_asm_source :
    assembleSource "ENTER_SHDN 0x1806\n ; rest\nEXIT_SHDN 0x1906".toList = some [0x00031806#32, 0x00041906#32] := by
  decide

/-! ### What the fields mean to the sensor (10_state.md R21, R22) -/

theorem test_settings :
    settingsOf layoutDefault 0x1906#16 =
      { conversion := .shutdown, alertOn := false, output := .comparator, polarity := .activeHigh,
        selector := true, resolution := .max } := by decide

/-! ### Witnesses: for each statement with hypotheses, a case that meets them -/

theorem witness_DecodeTempSplitsSignMagnitude : (0x03F8FFFF#32 : Command) &&& 0xFC070000#32 = 0x00000000#32 := by
  decide
theorem witness_UnpackCfgReadsEveryField :
    (0x03F9FFFF#32 : Command) &&& 0xFC070000#32 = 0x00010000#32 ∧
    (0xFFFF#16 : Word) &&& fieldMask (bench 0 0 []).layout = 0x190F#16 &&& fieldMask (bench 0 0 []).layout := by decide
theorem witness_PackCfgWritesFieldsKeepsPreserved :
    (0x03FAFFFF#32 : Command) &&& 0xFC070000#32 = 0x00020000#32 ∧
    get1 0x1906#16 layoutDefault.pos.shdn = true ∧ get1 0x1906#16 layoutDefault.pos.aen = false ∧
    get1 0x1906#16 layoutDefault.pos.amod = false ∧ get1 0x1906#16 layoutDefault.pos.apol = true ∧
    get1 0x1906#16 layoutDefault.pos.asel = true ∧ getRes layoutDefault 0x1906#16 = ResMode.max.code := by decide
theorem witness_EnterShdnSetsOnlyShutdown :
    (0x0003FEFF#32 : Command) &&& 0xFC070000#32 = 0x00030000#32 ∧
    (0x0100#16 : Word).getLsbD layoutDefault.pos.shdn = true := by decide
theorem witness_ExitShdnClearsOnlyShutdown : (0x03FCFFFF#32 : Command) &&& 0xFC070000#32 = 0x00040000#32 := by decide
theorem witness_SetResWritesOnlyResolution :
    (0x03FD0403#32 : Command) &&& 0xFC070000#32 = 0x00050000#32 ∧
    getRes layoutHigh 0xC000#16 = ResMode.max.code := by decide
theorem witness_SetAlertWritesOnlyAlertFlags :
    (0x033E1906#32 : Command) &&& 0xFC070000#32 = 0x00060000#32 ∧
    get1 0x1906#16 layoutDefault.pos.aen = false ∧ get1 0x1906#16 layoutDefault.pos.amod = false ∧
    get1 0x1906#16 layoutDefault.pos.apol = true ∧ get1 0x1906#16 layoutDefault.pos.asel = true := by decide
theorem witness_DecodeTempAgreesWithValue : tempValue 0x1001#16 ≠ 0 ∧ tempValue 0x1001#16 < 0 := by
  have hs : tempSign 0x1001#16 = true := by decide
  have hm : tempMagnitude 0x1001#16 = 1#12 := by decide
  simp only [tempValue, signOf, hs, hm]
  norm_num
theorem witness_DecodeTempOutputsInRange :
    (decodeTempPorts 0x0FFF#16).neg = false ∧ sv (decodeTempPorts 0x1FFF#16).dec < 0 := by decide
theorem witness_NegativeZeroKeepsSignBit : (0xF000#16 : Word) &&& 0x1FFF#16 = 0x1000#16 := by decide
theorem witness_DecodeTempReadsWordOnly (s : State) :
    exec (.decodeTemp 0xE190#16) s = .next { s with out := some (decodeTempPorts 0x0190#16) } := rfl
theorem witness_AccessorsTouchOnlyTheirField : (15 : Nat) < 16 ∧ (15 : Nat) ≠ layoutDefault.pos.res ∧
    (15 : Nat) ≠ layoutDefault.pos.res.val + 1 ∧ (15 : Nat) ≠ layoutDefault.pos.shdn := by decide
theorem witness_WritesPreserveOtherBits : writesConfig (.setRes 0x0403#16 .max) = true := by decide
theorem witness_UndrivenOutputsAreZero :
    isIllegal 0x04000190#32 ∧ isIllegal 0x00071234#32 ∧ writesConfig (.unpackCfg 0xFFFF#16) = false ∧
    (∀ d, Instr.unpackCfg 0xFFFF#16 ≠ .decodeTemp d) ∧ (∀ d, Instr.setRes 0xFFFF#16 .min ≠ .unpackCfg d) :=
  ⟨.inl (by decide), .inr (by decide), by decide, (fun _ h => nomatch h), (fun _ h => nomatch h)⟩
theorem witness_ResultDependsOnCommandAlone :
    (bench 0 0 [.command 0x00011906#32]).layout = (bench 0xFFFF 7 [.command 0x00011906#32, .converts 9]).layout ∧
    (bench 0 0 [.command 0x00011906#32]).pending = .command 0x00011906#32 :: [] ∧
    (bench 0xFFFF 7 [.command 0x00011906#32, .converts 9]).pending = .command 0x00011906#32 :: [.converts 9] :=
  ⟨rfl, rfl, rfl⟩
theorem witness_DecodingIsTotalByMask :
    inRow 0 0x00000190#32 ∧ inRow 6 0x03FEFFFF#32 ∧ (∀ op, op < 7 → ¬ inRow op 0x04000190#32) ∧
    (∀ op, op < 7 → ¬ inRow op 0x00071234#32) := by
  unfold inRow; decide
theorem witness_IgnoredFieldsDoNotMatter :
    inRow 5 0x03050403#32 ∧ inRow 5 0x03FD0403#32 ∧
    (0x03050403#32 : Command) &&& usedFields 5 = 0x03FD0403#32 &&& usedFields 5 := by
  unfold inRow; decide
theorem witness_EncodeOfDecode : decode 0x03FD0403#32 = .legal (.setRes 0x0403#16 .max) := by decide
theorem witness_AssemblerMakesLegalWords :
    ((65535 : Nat) < 65536 ∧ (1 : Nat) < 2 ∧ (3 : Nat) < 4 ∧ (255 : Nat) < 256) ∧
    ¬ (65536 : Nat) < 65536 ∧ ¬ (2 : Nat) < 2 ∧ ¬ (4 : Nat) < 4 ∧ ¬ (256 : Nat) < 256 ∧
    assemble (.setAlert 0x1906 1 1 0 0) = some 0x00361906#32 ∧
    wordHas 0x02AAE6F0#32 2 0xE6F0 1 0 1 0 1 2 := by
  unfold wordHas; decide
theorem witness_DecodeBytesIsBigEndian : (0xFF : Nat) < 256 ∧ (0x00 : Nat) < 256 := by decide
theorem witness_IllegalCommandFaults :
    (bench 0 0 [.command 0xFC070000#32]).pending = .command 0xFC070000#32 :: [] ∧ isIllegal 0xFC070000#32 ∧
    (bench 0 0 [.command 0x00061234#32]).pending = .command 0x00061234#32 :: [] ∧ ¬ isIllegal 0x00061234#32 :=
  ⟨rfl, .inr (by decide), rfl, by unfold isIllegal; decide⟩
theorem witness_IllegalCommandLeavesNoTrace : isIllegal 0x8372E6F0#32 := .inl (by decide)
theorem witness_StepRunsDecodedCommand :
    (bench 0 0 [.command 0x00031806#32]).pending = .command 0x00031806#32 :: [] ∧
    decode 0x00031806#32 = .legal (.enterShdn 0x1806#16) := by decide

/-- A host that has read CONFIG = 0x1806 and entered shutdown, about to write the result back (program P3). -/
def midUpdate : State :=
  (runMoves [.read 24 1 (.bytes 2), .command 0x00031806#32]
    (bench 0x1806 0x07D0 [.write 24 1 [0x19#8, 0x06#8] true])).2

theorem witness_midUpdate_inv : Inv midUpdate := by
  refine ⟨by unfold PortsShowCommand; decide, ?_⟩
  intro n w h
  cases n <;> simp_all [midUpdate, runMoves, carryOn, perform, bench, readRegister, resolve, receiveWord, bytesOfWord,
    operandOfBytes, holdWord, setBusError, regSet, regGet, presentCommand, decode, decodeOp, Command.x, Command.op,
    exec, execEnterShdn, complete, driveOutputs, latchCommand]

theorem witness_StepKeepsInvariant :
    Inv midUpdate ∧ ∃ t, step midUpdate = .next t ∧ t.sensor.configuration = 0x1906#16 :=
  ⟨witness_midUpdate_inv, _, rfl, by decide⟩
theorem witness_StepKeepsParameters : ∃ t, step midUpdate = .next t := ⟨_, rfl⟩
theorem witness_OnlyWritesChangeRegisters :
    midUpdate.pending = .write 24 1 [0x19#8, 0x06#8] true :: [] ∧ ∃ t, step midUpdate = .next t ∧
      regGet t.sensor .configuration ≠ regGet midUpdate.sensor .configuration :=
  ⟨rfl, _, rfl, by decide⟩
theorem witness_OnlyCommandsChangePorts :
    midUpdate.pending = .write 24 1 [0x19#8, 0x06#8] true :: [] ∧ (∃ t, step midUpdate = .next t) ∧
      ∀ cmd, HostMove.write 24 1 [0x19#8, 0x06#8] true ≠ .command cmd :=
  ⟨rfl, ⟨_, rfl⟩, (fun _ h => nomatch h)⟩
theorem witness_OnlyWholeWordsTransfer :
    resolve (bench 0 0 []).map 24 1 = some .configuration ∧
    (bench 0 0 [.read 24 1 (.bytes 3)]).pending = .read 24 1 (.bytes 3) :: [] ∧
    (bench 0 0 [.read 24 1 (.bytes 1)]).pending = .read 24 1 (.bytes 1) :: [] ∧
    (bench 0 0 [.read 24 1 .failed]).pending = .read 24 1 .failed :: [] ∧
    (bench 0 0 [.write 24 1 [0x19#8] true]).pending = .write 24 1 [0x19#8] true :: [] ∧ [0x19#8].length ≠ 2 := by
  decide
theorem witness_AccessWorksInShutdown :
    resolve (bench 0x1906 0 []).map 24 1 = some .configuration ∧
    get1 (bench 0x1906 0 []).sensor.configuration layoutDefault.pos.shdn = true ∧
    (bench 0x1906 0 [.read 24 1 (.bytes 2)]).pending = .read 24 1 (.bytes 2) :: [] ∧
    (bench 0x1906 0 [.write 24 1 [0x18#8, 0x06#8] true]).pending = .write 24 1 [0x18#8, 0x06#8] true :: [] := by decide
theorem witness_FailedAccessChangesNoRegister : resolve (bench 0 0 []).map 24 1 = some .configuration := by decide
theorem witness_ConversionChangesTemperatureOnly :
    (bench 0 0 [.converts 0x0190#16]).pending = .converts 0x0190#16 :: [] := by decide
theorem witness_DutifulWriteKeepsOtherBits :
    Inv midUpdate ∧ midUpdate.pending = .write 24 1 [0x19#8, 0x06#8] true :: [] ∧
    moveMeetsDuty midUpdate (.write 24 1 [0x19#8, 0x06#8] true) = true ∧ ∃ t, step midUpdate = .next t :=
  ⟨witness_midUpdate_inv, rfl, by decide, _, rfl⟩
theorem witness_ReadModifyWriteUpdatesOnlyField :
    resolve (bench 0x1806 0 []).map 24 1 = some .configuration ∧ writesConfig (.enterShdn 0x1806#16) = true ∧
    dataOf (.enterShdn 0x1806#16) = regGet (bench 0x1806 0 []).sensor .configuration := by decide
theorem witness_LostUpdateIsARun :
    resolve (bench 0x1806 0 []).map 24 1 = some .configuration ∧ writesConfig (.exitShdn 0x1806#16) = true ∧
    dataOf (.exitShdn 0x1806#16) = regGet (bench 0x1806 0 []).sensor .configuration := by decide

/-- A host that has read TEMP = 0x07D0 and is about to decode it (program P3 step 4). -/
def afterRead : State :=
  carryOn (.read 24 5 (.bytes 2)) (bench 0x1906 0x07D0 [.command 0x000007D0#32])

theorem witness_DutifulCommandsAreAccepted :
    afterRead.pending = .command 0x000007D0#32 :: [] ∧ moveMeetsDuty afterRead (.command 0x000007D0#32) = true ∧
    (∀ n, regGet (bench 0 0 []).held n = none) :=
  ⟨rfl, by decide, fun n => by cases n <;> rfl⟩

/-- Program P3 steps 1 to 3 and 5 to 7, a dutiful run with two writes to CONFIG; and moves that do not read CONFIG. -/
theorem witness_EveryUpdateIsOneWrite :
    runMeetsDuty ([.read 24 1 (.bytes 2), .command 0x00031806#32] ++ .write 24 1 [0x19#8, 0x06#8] true ::
      [.read 24 1 (.bytes 2), .command 0x00041906#32] ++ .write 24 1 [0x18#8, 0x06#8] true :: [])
      (bench 0x1806 0 []) = true ∧
    resolve (bench 0x1806 0 []).map 24 1 = some .configuration ∧
    (∀ device register, .read device register (.bytes 2) ∈
        [HostMove.read 24 5 (.bytes 2), .command 0x00031806#32, .read 24 1 .failed] →
      resolve (bench 0x1806 0 []).map device register ≠ some .configuration) := by
  refine ⟨by decide, by decide, fun device register h => ?_⟩
  simp only [List.mem_cons, HostMove.read.injEq, and_true, reduceCtorEq, and_false, List.not_mem_nil, or_false] at h
  obtain ⟨rfl, rfl⟩ := h
  decide

/-- Program P1 steps 1 and 2, then the same for a configuration word. -/
theorem witness_OperandsAreReadFirst :
    (∀ n, regGet (bench 0x1906 0x1014 []).held n = none) ∧
    runMeetsDuty ([.read 24 5 (.bytes 2)] ++ .command 0x00001014#32 :: [.read 24 1 (.bytes 2), .command 0x00011906#32])
      (bench 0x1906 0x1014 []) = true ∧
    decode 0x00001014#32 = .legal (.decodeTemp 0x1014#16) ∧
    resolve (bench 0x1906 0x1014 []).map 24 1 = some .configuration :=
  ⟨fun n => by cases n <;> rfl, by decide, by decide, by decide⟩

/-! ### The host's duties (70_reset_and_hazards.md R90, R95) -/

/-- R95, R90: a failed write is the one write; the host may not try it again. -/
theorem test_no_second_write :
    runMeetsDuty [.read 24 1 (.bytes 2), .command 0x00031806#32, .write 24 1 [0x19#8, 0x06#8] false,
      .write 24 1 [0x19#8, 0x06#8] true] (bench 0x1806 0 []) = false := by decide
/-- R95: the write comes even when the result is the word read (SET_RES to the code it holds). -/
theorem test_write_even_when_equal :
    runMeetsDuty [.read 24 1 (.bytes 2), .command 0x03051806#32] (bench 0x1806 0 []) = false := by decide

/-- R87: a word of the temperature register is no configuration word, though it was read. -/
theorem test_unpack_temperature_word :
    runMeetsDuty [.read 24 5 (.bytes 2), .command 0x00011014#32] (bench 0x1906 0x1014 []) = false := by decide
/-- 90_conflicts.md C4: SET_RES on a dedicated resolution register's word (the bench's holds 3). -/
theorem test_set_res_dedicated :
    runMeetsDuty [.read 24 8 (.bytes 2), .command 0x03050003#32, .write 24 8 [0x18#8, 0x03#8] true]
      (bench 0 0 []) = true := by decide

end Sys2Proof.Tests
end

section
/-! PROOFS. What a move that answers a next state did, as one relation, and a host that goes on after a move: the facts
about the system round the block that the statements on steps and runs share. -/

namespace Sys2Proof.Machine

/-- `Completes s m t`: the move `m` completes in `s`, and `t` is all it did. One constructor for each way to complete. -/
inductive Completes (s : State) : HostMove → State → Prop
  | command {cmd : Command} {i : Instr} (hd : decode cmd = .legal i) :
      Completes s (.command cmd) (driveOutputs (evaluate s.layout cmd) (latchCommand cmd s))
  | read {device register : Nat} {n : SensorReg} (hn : resolve s.map device register = some n) :
      Completes s (.read device register (.bytes 2)) (setBusError false (holdWord n (regGet s.sensor n) s))
  | writeDone {device register : Nat} {bytes : List Byte} {n : SensorReg} {w : Word}
      (hn : resolve s.map device register = some n) (hw : operandOfBytes bytes = some w) :
      Completes s (.write device register bytes true) (setBusError false (storeRegister n w s))
  | writeFailed {device register : Nat} {bytes : List Byte} {n : SensorReg} {w : Word}
      (hn : resolve s.map device register = some n) (hw : operandOfBytes bytes = some w) :
      Completes s (.write device register bytes false) (setBusError true (overtakeRead n s))
  | otherWrite (n : SensorReg) (w : Word) : Completes s (.otherWrite n w) (storeRegister n w s)
  | converts (w : Word) : Completes s (.converts w) (storeRegister .temperature w s)

theorem completes_of_perform {m : HostMove} {s t : State} (h : perform m s = .next t) : Completes s m t := by
  cases m with
  | command cmd =>
    obtain ⟨i, hd, rfl⟩ := presentCommand_next h
    rw [← evaluate_of_legal _ hd]
    exact .command hd
  | read device register reply =>
    obtain ⟨n, hn, rfl, rfl⟩ := readRegister_next h
    exact .read hn
  | write device register bytes done =>
    obtain ⟨n, w, hn, hw, ⟨rfl, rfl⟩ | ⟨rfl, rfl⟩⟩ := writeRegister_next h
    · exact .writeDone hn hw
    · exact .writeFailed hn hw
  | otherWrite n w => cases h; exact .otherWrite n w
  | converts w => cases h; exact .converts w

theorem perform_of_completes {m : HostMove} {s t : State} (h : Completes s m t) : perform m s = .next t := by
  cases h with
  | command hd => simp only [perform, presentCommand_of_legal hd, evaluate_of_legal _ hd]
  | read hn => simp only [perform, readRegister, hn, if_true, receiveWord, operandOfBytes_bytesOfWord]
  | writeDone hn hw => simp only [perform, writeRegister, hn, hw, if_true]
  | writeFailed hn hw => simp only [perform, writeRegister, hn, hw, Bool.false_eq_true, if_false]
  | otherWrite n w => rfl
  | converts w => rfl

/-- A move answers a next state exactly when it completes. -/
theorem perform_eq_next_iff {m : HostMove} {s t : State} : perform m s = .next t ↔ Completes s m t :=
  ⟨completes_of_perform, perform_of_completes⟩

/-- A host that goes on stands where the move completed, or where `afterStop` puts it after a move that stopped. -/
theorem carryOn_cases (m : HostMove) (s : State) :
    Completes s m (carryOn m s) ∨ ((∀ t, ¬ Completes s m t) ∧ carryOn m s = afterStop m s) := by
  simp only [← perform_eq_next_iff, carryOn]
  cases hp : perform m s with
  | next t => exact .inl rfl
  | fault f => exact .inr ⟨(fun _ h => nomatch h), rfl⟩
  | refused r => exact .inr ⟨(fun _ h => nomatch h), rfl⟩

/-- No move changes a parameter (10_state.md R18, 20_memory.md R26). -/
theorem completes_keeps_parameters {m : HostMove} {s t : State} (h : Completes s m t) :
    t.layout = s.layout ∧ t.map = s.map := by
  cases h with
  | command | read | writeDone | writeFailed | otherWrite | converts => exact ⟨rfl, rfl⟩

end Sys2Proof.Machine
end

section
/-! PROOFS. The invariant, operation by operation: each operation on the state that a move is made of keeps it. -/

namespace Sys2Proof.Safety

open Sys2Proof.Machine

/-! ### Words the host has read -/

theorem freshIsCurrent_holdWord {s : State} (h : FreshIsCurrent s) (n : SensorReg) :
    FreshIsCurrent (holdWord n (regGet s.sensor n) s) := by
  intro k w hk
  rw [holdWord_held] at hk
  rw [holdWord_sensor]
  by_cases hkn : k = n
  · subst hkn
    rw [regGet_regSet_same] at hk
    cases hk
    rfl
  · rw [regGet_regSet_other _ _ _ _ hkn] at hk
    exact h k w hk

/-- A word that is fresh after register `n` is overtaken is one of another register, and was fresh before. -/
theorem fresh_of_fresh_overtaken {v : PerReg (Option Held)} {n k : SensorReg} {w : Word}
    (h : regGet (regSet v n ((regGet v n).map Held.stale)) k = some { word := w, fresh := true }) :
    k ≠ n ∧ regGet v k = some { word := w, fresh := true } := by
  by_cases hkn : k = n
  · subst hkn
    rw [regGet_regSet_same, Option.map_eq_some_iff] at h
    obtain ⟨y, -, hy⟩ := h
    exact absurd (congrArg Held.fresh hy) Bool.false_ne_true
  · rw [regGet_regSet_other _ _ _ _ hkn] at h
    exact ⟨hkn, h⟩

theorem freshIsCurrent_overtakeRead {s : State} (h : FreshIsCurrent s) (n : SensorReg) :
    FreshIsCurrent (overtakeRead n s) := by
  intro k w hk
  obtain ⟨-, hk⟩ := fresh_of_fresh_overtaken hk
  exact h k w hk

theorem freshIsCurrent_storeRegister {s : State} (h : FreshIsCurrent s) (n : SensorReg) (x : Word) :
    FreshIsCurrent (storeRegister n x s) := by
  intro k w hk
  obtain ⟨hkn, hk⟩ := fresh_of_fresh_overtaken hk
  rw [storeRegister_sensor, regGet_regSet_other _ _ _ _ hkn]
  exact h k w hk

theorem freshIsCurrent_dropHeld {s : State} (h : FreshIsCurrent s) (n : SensorReg) :
    FreshIsCurrent (dropHeld n s) := by
  intro k w hk
  rw [dropHeld_held] at hk
  by_cases hkn : k = n
  · subst hkn
    rw [regGet_regSet_same] at hk
    cases hk
  · rw [regGet_regSet_other _ _ _ _ hkn] at hk
    exact h k w hk

/-! ### The invariant

The operations on the host's record and on the sensor leave the layout and the ports alone, so the ports' half of the
invariant carries over as it is. -/

/-- Any word on the input port with its own result on the output ports. -/
theorem inv_evaluated {s : State} (h : Inv s) (cmd : Command) :
    Inv (driveOutputs (evaluate s.layout cmd) (latchCommand cmd s)) := by
  obtain ⟨-, hfresh⟩ := h
  exact ⟨rfl, hfresh⟩

theorem inv_setBusError {s : State} (h : Inv s) (b : Bool) : Inv (setBusError b s) := h

theorem inv_setPending {s : State} (h : Inv s) (ms : List HostMove) : Inv { s with pending := ms } := h

theorem inv_holdWord {s : State} (h : Inv s) (n : SensorReg) : Inv (holdWord n (regGet s.sensor n) s) :=
  ⟨h.1, freshIsCurrent_holdWord h.2 n⟩

theorem inv_overtakeRead {s : State} (h : Inv s) (n : SensorReg) : Inv (overtakeRead n s) :=
  ⟨h.1, freshIsCurrent_overtakeRead h.2 n⟩

theorem inv_storeRegister {s : State} (h : Inv s) (n : SensorReg) (x : Word) : Inv (storeRegister n x s) :=
  ⟨h.1, freshIsCurrent_storeRegister h.2 n x⟩

theorem inv_dropHeld {s : State} (h : Inv s) (n : SensorReg) : Inv (dropHeld n s) :=
  ⟨h.1, freshIsCurrent_dropHeld h.2 n⟩

theorem inv_reset : Inv State.reset :=
  ⟨rfl, fun n _ hn => by cases n <;> cases hn⟩

theorem completes_keeps_inv {m : HostMove} {s t : State} (hinv : Inv s) (h : Completes s m t) : Inv t := by
  cases h with
  | command => exact inv_evaluated hinv _
  | read => exact inv_setBusError (inv_holdWord hinv _) _
  | writeDone => exact inv_setBusError (inv_storeRegister hinv _ _) _
  | writeFailed => exact inv_setBusError (inv_overtakeRead hinv _) _
  | otherWrite n w => exact inv_storeRegister hinv n w
  | converts w => exact inv_storeRegister hinv .temperature w

/-- A stopped command was illegal, so the zero ports it leaves are its own result. -/
theorem afterStop_keeps_inv {m : HostMove} {s : State} (hinv : Inv s) (hstop : ∀ t, ¬ Completes s m t) :
    Inv (afterStop m s) := by
  cases m with
  | command cmd =>
    cases hd : decode cmd with
    | legal i => exact absurd (.command hd) (hstop _)
    | illegalCommand c =>
      simp only [afterStop, afterIllegalCommand_eq, ← evaluate_of_illegal s.layout hd]
      exact inv_evaluated hinv cmd
  | read device register reply =>
    simp only [afterStop]
    split
    · exact hinv
    · split
      · exact inv_setBusError (inv_dropHeld hinv _) true
      · exact inv_dropHeld hinv _
  | write | otherWrite | converts => exact hinv

theorem step_keeps_inv {s t : State} (hinv : Inv s) (h : step s = .next t) : Inv t := by
  obtain ⟨m, rest, -, hm⟩ := step_next h
  exact completes_keeps_inv (inv_setPending hinv rest) (completes_of_perform hm)

theorem carryOn_keeps_inv (m : HostMove) {s : State} (hinv : Inv s) : Inv (carryOn m s) := by
  obtain hdone | ⟨hstop, heq⟩ := carryOn_cases m s
  · exact completes_keeps_inv hinv hdone
  · rw [heq]
    exact afterStop_keeps_inv hinv hstop

end Sys2Proof.Safety
end

section
/-! PROOFS. Facts about the decoder, the ports of a command and the configuration word that the statements share. -/

namespace Sys2Proof.Machine

open Sys2Proof.Claims

/-! ### Illegal words (30_encoding.md R43, R44) -/

theorem decodeOp_eq_illegalCommand_iff (cmd : Command) : decodeOp cmd = .illegalCommand cmd ↔ cmd.op = 7 := by
  unfold decodeOp
  generalize cmd.op = op
  split_ifs with h0 h1 h2 h3 h4 h5 h6
  case neg =>
    have h7 : op = 7 := by bv_omega
    exact iff_of_true rfl h7
  all_goals
    subst op
    exact iff_of_false nofun (by decide)

/-- The words the decoder answers as illegal are those of R43 and R44. -/
theorem decode_eq_illegalCommand_iff (cmd : Command) : decode cmd = .illegalCommand cmd ↔ isIllegal cmd := by
  have hx : cmd.x = cmd.extractLsb' 26 6 := rfl
  have hop : cmd.op = cmd.extractLsb' 16 3 := rfl
  unfold decode isIllegal
  rw [← hx, ← hop]
  by_cases h : cmd.x = 0
  · rw [if_pos h, decodeOp_eq_illegalCommand_iff, or_iff_right (not_not_intro h)]
  · rw [if_neg h]
    exact iff_of_true rfl (.inl h)

/-! ### The ports of a command (10_state.md R14, R15) -/

/-- A writing operation drives its word, and 0 on the ports of the two reading ones. -/
theorem portsOf_of_writesConfig (L : CfgLayout) {i : Instr} (h : writesConfig i = true) :
    ∃ w, portsOf L i = portsWord w := by
  cases i with
  | decodeTemp | unpackCfg => cases h
  | packCfg | enterShdn | exitShdn | setRes | setAlert => exact ⟨_, rfl⟩

/-- The operations fall into three kinds by the ports they drive (R14). -/
theorem instr_kind (i : Instr) : (∃ d, i = .decodeTemp d) ∨ (∃ d, i = .unpackCfg d) ∨ writesConfig i = true := by
  cases i with
  | decodeTemp d => exact .inl ⟨d, rfl⟩
  | unpackCfg d => exact .inr (.inl ⟨d, rfl⟩)
  | packCfg | enterShdn | exitShdn | setRes | setAlert => exact .inr (.inr rfl)

theorem portsOf_undriven (L : CfgLayout) (i : Instr) :
    (portsOf L i).ok = true ∧
    ((∀ d, i ≠ .decodeTemp d) → (portsOf L i).neg = false ∧ (portsOf L i).dec = 0 ∧ (portsOf L i).frac = 0) ∧
    ((∀ d, i ≠ .unpackCfg d) → (portsOf L i).s = false ∧ (portsOf L i).e = false ∧ (portsOf L i).m = false ∧
      (portsOf L i).p = false ∧ (portsOf L i).l = false ∧ (portsOf L i).r = 0) ∧
    (writesConfig i = false → (portsOf L i).word = 0) := by
  obtain ⟨d, rfl⟩ | ⟨d, rfl⟩ | hw := instr_kind i
  · exact ⟨rfl, fun h => absurd rfl (h d), fun _ => ⟨rfl, rfl, rfl, rfl, rfl, rfl⟩, fun _ => rfl⟩
  · exact ⟨rfl, fun _ => ⟨rfl, rfl, rfl⟩, fun h => absurd rfl (h d), fun _ => rfl⟩
  · obtain ⟨w, hp⟩ := portsOf_of_writesConfig L hw
    rw [hp]
    exact ⟨rfl, fun _ => ⟨rfl, rfl, rfl⟩, fun _ => ⟨rfl, rfl, rfl, rfl, rfl, rfl⟩,
      fun h => absurd (h.symm.trans hw) Bool.false_ne_true⟩

/-! ### The configuration word (10_state.md R18, R20, 41_config_pack.md R58) -/

theorem layout_bits_nodup (L : CfgLayout) : L.pos.bits.Nodup := by
  have h := L.legal
  simp only [Positions.legal, Bool.and_eq_true, decide_eq_true_eq] at h
  exact h.2

theorem lt_of_mem_layout_bits (L : CfgLayout) {k : Nat} (h : k ∈ L.pos.bits) : k < 16 := by
  have hres := (layout_distinct L).1
  simp only [Positions.bits, List.mem_cons, List.not_mem_nil, or_false] at h
  omega

/-- The set bits of FIELD_MASK, in order, are the layout's seven indices, in some order. -/
theorem fieldMask_setBits_perm (L : CfgLayout) :
    ((List.range 16).filter fun k => (fieldMask L).getLsbD k).Perm L.pos.bits := by
  rw [List.perm_ext_iff_of_nodup (List.nodup_range.filter _) (layout_bits_nodup L)]
  intro k
  rw [List.mem_filter, List.mem_range, fieldMask_bit, decide_eq_true_eq]
  exact and_iff_right_of_imp (lt_of_mem_layout_bits L)

theorem getRes_putRes (L : CfgLayout) (w : Word) (r : BitVec 2) : getRes L (putRes L w r) = r := by
  apply BitVec.eq_of_getLsbD_eq
  intro k hk
  rw [getRes_bit, putRes_bit]
  interval_cases k <;> simp

end Sys2Proof.Machine
end

section
/-! PROOFS. The statements about the block's state, its steps and its runs. -/

namespace Sys2Proof.Proofs

open Sys2Proof.Machine Sys2Proof.Safety Sys2Proof.Claims

/-- Settles O33: each operation a move is made of keeps the invariant, and a command that stops was illegal. -/
theorem stepKeepsInvariant : Obligations.StepKeepsInvariant :=
  ⟨fun _ _ hinv h => step_keeps_inv hinv h, fun m _ hinv => carryOn_keeps_inv m hinv⟩

/-- Settles O13: the masks' bits by their laws, and the count by listing the seven distinct indices. -/
theorem fieldMaskHasSevenBits : Obligations.FieldMaskHasSevenBits := by
  refine ⟨fun L => ⟨fun k _ => ?_, fun k _ => ?_, fun k _ => ?_, rfl, ?_⟩, by decide⟩
  · rw [mShdn_bit, decide_eq_true_iff]
  · simp only [mAlert_bit, Bool.or_eq_true, decide_eq_true_eq, or_assoc]
  · simp only [mRes_bit, Bool.or_eq_true, decide_eq_true_eq]
  · exact (fieldMask_setBits_perm L).length_eq

/-- Settles O18: by the three kinds of operation, and for an illegal word because its result is all zero. -/
theorem undrivenOutputsAreZero : Obligations.UndrivenOutputsAreZero := by
  refine ⟨fun i s => ⟨portsOf s.layout i, exec_eq i s, portsOf_undriven s.layout i⟩, fun cmd s hill => ?_⟩
  rw [carryOn_command, evaluate_of_illegal _ ((decode_eq_illegalCommand_iff cmd).mpr hill)]
  rfl

/-- Settles O19: both steps present the same word, whose result is a function of the word and the layout. -/
theorem resultDependsOnCommandAlone : Obligations.ResultDependsOnCommandAlone := by
  intro s t cmd rest rest' hlayout hs ht
  rw [step_cons hs, step_cons ht]
  simp only [perform]
  cases hd : decode cmd with
  | legal i =>
    refine .inl ⟨portsOf s.layout i, presentCommand_of_legal hd _, ?_⟩
    rw [hlayout]
    exact presentCommand_of_legal hd _
  | illegalCommand c => exact .inr ⟨presentCommand_of_illegal hd _, presentCommand_of_illegal hd _⟩

/-- Settles O34: no way for a move to complete touches a parameter. -/
theorem stepKeepsParameters : Obligations.StepKeepsParameters := by
  intro s t h
  obtain ⟨m, rest, -, hm⟩ := step_next h
  have hparams := completes_keeps_parameters (completes_of_perform hm)
  exact hparams

/-- Settles O42, by induction on the list of words: each leaves the layout, the sensor and the host's record alone. -/
theorem runResultsAreEachCommandsOwn : Obligations.RunResultsAreEachCommandsOwn := by
  intro cmds
  induction cmds with
  | nil => exact fun s => ⟨rfl, rfl, rfl⟩
  | cons cmd cmds ih =>
    intro s
    obtain ⟨hresults, hsensor, hheld⟩ := ih (driveOutputs (evaluate s.layout cmd) (latchCommand cmd s))
    simp only [List.map_cons, runMoves, carryOn_command]
    refine ⟨?_, hsensor, hheld⟩
    rw [hresults]
    rfl

/-- Settles O25: the four codes and the four modes, case by case. -/
theorem resolutionCodesAreAllLegal : Obligations.ResolutionCodesAreAllLegal :=
  ⟨by decide, fun m => by cases m <;> rfl, rfl, rfl, rfl, rfl⟩

/-- Settles O30: the step performs the presented word, and presenting a legal word is `exec`. -/
theorem stepRunsDecodedCommand : Obligations.StepRunsDecodedCommand := by
  intro s cmd i rest hpending hd
  rw [step_cons hpending]
  simp only [perform, presentCommand, hd]
  rfl

/-- Settles O31: the configuration word at reset is CFG_RESET_OTHER with MAX put into its RES field. -/
theorem resetLeavesDraws : Obligations.ResetLeavesDraws := by
  have hlayout : State.reset.layout = layoutDefault := rfl
  have hconfig : State.reset.sensor.configuration = putRes layoutDefault Config.cfgResetOther ResMode.max.code := rfl
  unfold Obligations.ResetLeavesDraws
  rw [hlayout, hconfig]
  refine ⟨rfl, rfl, getRes_putRes _ _ _, fun k _ h0 h1 => ?_, rfl, rfl, rfl⟩
  rw [putRes_bit, if_neg h0, if_neg h1]

/-- Settles O32: nothing has been presented and nothing read. -/
theorem resetMeetsInvariant : Obligations.ResetMeetsInvariant := inv_reset

end Sys2Proof.Proofs
end

section
/-! PROOFS. The transport: the bytes of a register word (20_memory.md R27, R29), the accesses that are refused (R29, R90),
and what the moves that complete leave alone (R25, R31). -/

namespace Sys2Proof.Machine

/-! ### The bytes of a word -/

/-- The first byte on the bus is the high one (R27). -/
theorem busWord_toNat (b0 b1 : Byte) : (b0 ++ b1 : Word).toNat = b0.toNat * 256 + b1.toNat := by
  rw [BitVec.toNat_append, ← Nat.shiftLeft_add_eq_or_of_lt b1.isLt, Nat.shiftLeft_eq]

/-- Bit 12 of the word is bit 4 of its first byte (R16, R27). -/
theorem tempSign_busWord (b0 b1 : Byte) : tempSign (b0 ++ b1) = b0.getLsbD 4 := by
  rw [tempSign, BitVec.getLsbD_append]
  rfl

theorem highByte_toNat (w : Word) : (w.extractLsb' 8 8).toNat = w.toNat / 256 := by
  rw [BitVec.extractLsb'_toNat, Nat.shiftRight_eq_div_pow]
  have hw := w.isLt
  omega

theorem lowByte_toNat (w : Word) : (w.extractLsb' 0 8).toNat = w.toNat % 256 := by
  rw [BitVec.extractLsb'_toNat, Nat.shiftRight_zero]

theorem operandOfBytes_eq_none {bytes : List Byte} (h : bytes.length ≠ 2) : operandOfBytes bytes = none := by
  match bytes with
  | [] | [_] | _ :: _ :: _ :: _ => rfl
  | [_, _] => exact absurd rfl h

/-! ### Accesses that are refused -/

section
variable {device register : Nat} {n : SensorReg} {s : State} (hn : resolve s.map device register = some n)
include hn

theorem readRegister_failed : readRegister device register .failed s = .refused .readFailed := by
  simp only [readRegister, hn]

theorem readRegister_wrongSize {count : Nat} (h : count ≠ 2) :
    readRegister device register (.bytes count) s = .refused .readNotTwoBytes := by
  simp only [readRegister, hn, if_neg h]

theorem writeRegister_wrongSize {bytes : List Byte} (h : bytes.length ≠ 2) (done : Bool) :
    writeRegister device register bytes done s = .refused .writeNotTwoBytes := by
  simp only [writeRegister, hn, operandOfBytes_eq_none h]

end

/-! ### Moves that complete -/

/-- A step that answers a next state completed its first pending move. -/
theorem completes_of_step {s t : State} {m : HostMove} {rest : List HostMove} (hp : s.pending = m :: rest)
    (h : step s = .next t) : Completes { s with pending := rest } m t := by
  rw [step_cons hp] at h
  exact completes_of_perform h

/-- A register whose value a write changed is the register written. -/
theorem eq_of_regGet_regSet_ne {α : Type} {v : PerReg α} {n k : SensorReg} {x : α}
    (h : regGet (regSet v n x) k ≠ regGet v k) : k = n :=
  Decidable.byContradiction fun hk => h (regGet_regSet_other v n k x hk)

/-- A result replaces the one before it, and leaves no other trace of it. -/
@[simp] theorem driveOutputs_driveOutputs (p q : Ports) (s : State) :
    driveOutputs p (driveOutputs q s) = driveOutputs p s := rfl

end Sys2Proof.Machine
end

section
/-! PROOFS. The statements about the transport, and about what may change the sensor's registers and the ports. -/

namespace Sys2Proof.Proofs

open Sys2Proof.Machine

/-- Settles O35, by the ways a move can complete: three of them store a word, each in the one register it names. -/
theorem onlyWritesChangeRegisters : Obligations.OnlyWritesChangeRegisters := by
  intro s t m rest n hpending hstep hchanged
  cases completes_of_step hpending hstep with
  | command | read | writeFailed => exact absurd rfl hchanged
  | writeDone hresolve hoperand =>
    obtain rfl := eq_of_regGet_regSet_ne hchanged
    exact .inl ⟨_, _, _, rfl, hresolve, by simpa using hoperand⟩
  | otherWrite k w =>
    obtain rfl := eq_of_regGet_regSet_ne hchanged
    exact .inr (.inl (by simp))
  | converts w =>
    obtain rfl := eq_of_regGet_regSet_ne hchanged
    exact .inr (.inr ⟨rfl, by simp⟩)

/-- Settles O36: of the ways a move can complete, only a command's touches a port. -/
theorem onlyCommandsChangePorts : Obligations.OnlyCommandsChangePorts := by
  intro s t m rest hpending hstep hnotCommand
  cases completes_of_step hpending hstep with
  | command => exact absurd rfl (hnotCommand _)
  | read | writeDone | writeFailed | otherWrite | converts => exact ⟨rfl, rfl⟩

/-- Settles O37: the word of two bytes as a number, from which the magnitude's high bits follow, and its sign bit; the
bytes sent are the word's quotient and remainder by 256. -/
theorem busOrderIsBigEndian : Obligations.BusOrderIsBigEndian := by
  refine ⟨fun b0 b1 => ⟨b0 ++ b1, rfl, busWord_toNat b0 b1, tempSign_busWord b0 b1, ?_⟩,
    fun w => ⟨_, _, rfl, highByte_toNat w, lowByte_toNat w, operandOfBytes_bytesOfWord w⟩⟩
  rw [tempMagnitude_toNat, busWord_toNat]
  have hb1 := b1.isLt
  omega

/-- Settles O17: a command drives the ports with a result that the ports themselves have no part in. -/
theorem commandsChangeOnlyOutputs : Obligations.CommandsChangeOnlyOutputs := by
  intro i s
  refine ⟨driveOutputs (portsOf s.layout i) s, exec_eq i s, rfl, rfl, rfl, rfl, rfl, rfl, rfl, ?_⟩
  rw [exec_eq, driveOutputs_layout, driveOutputs_driveOutputs]

/-- Settles O38: each access reaches the register and is refused there. -/
theorem onlyWholeWordsTransfer : Obligations.OnlyWholeWordsTransfer := by
  intro s device register n rest hresolve
  replace hresolve : resolve ({ s with pending := rest } : State).map device register = some n := hresolve
  refine ⟨fun count hcount hpending => ?_, fun hpending => ?_, fun bytes done hlength hpending => ?_⟩ <;>
    rw [step_cons hpending]
  · exact readRegister_wrongSize hresolve hcount
  · exact readRegister_failed hresolve
  · exact writeRegister_wrongSize hresolve hlength done

end Sys2Proof.Proofs
end

section
/-! PROOFS. The decoder and the encoder, field by field (30_encoding.md R37): which words lie in a row of the opcode
table, what a decoded command takes from its word, and what the decoder and the encoder do to one another. -/

namespace Sys2Proof.Machine

open Sys2Proof.Claims

/-! ### A word and its fields (R37) -/

theorem getLsbD_of_x_eq_zero {cmd : Command} (hx : cmd.x = 0) {j : Nat} (hj : j < 6) :
    cmd.getLsbD (26 + j) = false := by
  have hbit := congrArg (BitVec.getLsbD · j) hx
  simpa only [Command.x, BitVec.getLsbD_extractLsb', hj, decide_true, Bool.true_and, BitVec.ofNat_eq_ofNat,
    BitVec.getLsbD_zero] using hbit

/-- A word whose `X` is 0 is laid out from its own fields. -/
theorem commandOf_fields {cmd : Command} (hx : cmd.x = 0) :
    commandOf cmd.r cmd.l cmd.p cmd.m cmd.e cmd.s cmd.op cmd.d = cmd := by
  apply BitVec.eq_of_getLsbD_eq
  intro k hk
  rw [commandOf_bit]
  by_cases hX : k < 26
  · simp only [Command.r, Command.l, Command.p, Command.m, Command.e, Command.s, Command.op, Command.d,
      BitVec.getLsbD_extractLsb']
    interval_cases k <;> simp
  · obtain ⟨j, rfl⟩ := Nat.exists_eq_add_of_le (Nat.le_of_not_lt hX)
    rw [getLsbD_of_x_eq_zero hx (by omega)]
    grind

/-- A mask of `X`, `OP`, `D` and some of the other fields, each whole, keeps those fields and makes the rest 0. -/
theorem commandOf_and_wholeFields (r : BitVec 2) (l p m e s : Bool) (op : BitVec 3) (d : Word)
    (keepR keepL keepP keepM keepE keepS : Bool) :
    commandOf r l p m e s op d &&&
        (opcodeMask ||| commandOf (bif keepR then 3 else 0) keepL keepP keepM keepE keepS 0 0xFFFF) =
      commandOf (bif keepR then r else 0) (keepL && l) (keepP && p) (keepM && m) (keepE && e) (keepS && s) op d := by
  apply BitVec.eq_of_getLsbD_eq
  intro k hk
  simp only [BitVec.getLsbD_and, BitVec.getLsbD_or, commandOf_bit, opcodeMask]
  cases keepR <;> interval_cases k <;> simp [Bool.and_comm]

/-- A word whose only field other than 0 is `D` is the number `D`. -/
theorem commandOf_data_toNat (d : Word) : (commandOf 0 false false false false false 0 d).toNat = d.toNat := by
  have h : commandOf 0 false false false false false 0 d = (0 : BitVec 16) ++ d := rfl
  rw [h, BitVec.toNat_append]
  simp

/-! ### The rows of the opcode table (R45) -/

/-- The table's mask keeps `X` whole. -/
theorem x_and_opcodeMask (cmd : Command) : Command.x (cmd &&& opcodeMask) = cmd.x := by
  have hmask : opcodeMask.x = BitVec.allOnes 6 := rfl
  rw [Command.x, BitVec.extractLsb'_and, ← Command.x, ← Command.x, hmask, BitVec.and_allOnes]

/-- The table's mask keeps `OP` whole. -/
theorem op_and_opcodeMask (cmd : Command) : Command.op (cmd &&& opcodeMask) = cmd.op := by
  have hmask : opcodeMask.op = BitVec.allOnes 3 := rfl
  rw [Command.op, BitVec.extractLsb'_and, ← Command.op, ← Command.op, hmask, BitVec.and_allOnes]

theorem inRow_iff {op : Nat} (hop : op < 7) (cmd : Command) : inRow op cmd ↔ cmd.x = 0 ∧ cmd.op.toNat = op := by
  constructor
  · intro h
    have hmasked : cmd &&& opcodeMask = BitVec.ofNat 32 op <<< 16 := h
    rw [← x_and_opcodeMask, ← op_and_opcodeMask, hmasked]
    interval_cases op <;> decide
  · rintro ⟨hx, rfl⟩
    rw [inRow, BitVec.ofNat_toNat, ← commandOf_fields hx, commandOf_op]
    exact Laws.InRow.commandOf_masked ..

theorem exists_inRow_iff (cmd : Command) : (∃ op, op < 7 ∧ inRow op cmd) ↔ ¬ isIllegal cmd := by
  have hop : cmd.op ≠ 7 ↔ cmd.op.toNat < 7 := by bv_omega
  have hill : isIllegal cmd ↔ cmd.x ≠ 0 ∨ cmd.op = 7 := Iff.rfl
  rw [hill, not_or, not_not, ← Ne, hop]
  constructor
  · rintro ⟨op, hlt, hrow⟩
    obtain ⟨hx, rfl⟩ := (inRow_iff hlt cmd).mp hrow
    exact ⟨hx, hlt⟩
  · rintro ⟨hx, hlt⟩
    exact ⟨_, hlt, (inRow_iff hlt cmd).mpr ⟨hx, rfl⟩⟩

/-- The legal words are the others (R43, R44): decoding answers nothing else. -/
theorem exists_legal_iff (cmd : Command) : (∃ i, decode cmd = .legal i) ↔ ¬ isIllegal cmd := by
  rw [← decode_eq_illegalCommand_iff]
  cases hd : decode cmd with
  | legal i => exact iff_of_true ⟨i, rfl⟩ nofun
  | illegalCommand c =>
    rw [decode_illegal_word hd]
    exact iff_of_false nofun (not_not_intro rfl)

/-! ### What a command takes from its word (R39, R42) -/

/-- The operands of the command are the word's fields, those its operation uses. -/
def OperandsFrom (cmd : Command) : Instr → Prop
  | .decodeTemp d | .unpackCfg d | .enterShdn d | .exitShdn d => cmd.d = d
  | .packCfg d s e m p l r =>
    cmd.d = d ∧ cmd.s = s ∧ cmd.e = e ∧ cmd.m = m ∧ cmd.p = p ∧ cmd.l = l ∧ ResMode.ofCode cmd.r = r
  | .setRes d r => cmd.d = d ∧ ResMode.ofCode cmd.r = r
  | .setAlert d e m p l => cmd.d = d ∧ cmd.e = e ∧ cmd.m = m ∧ cmd.p = p ∧ cmd.l = l

/-- Each branch of the decoder reads the operands off the word. -/
theorem operandsFrom_of_decodeOp {cmd : Command} {i : Instr} (h : decodeOp cmd = .legal i) :
    cmd.op = opOf i ∧ OperandsFrom cmd i := by
  unfold decodeOp at h
  split_ifs at h with h0 h1 h2 h3 h4 h5 h6 <;> cases h
  exacts [⟨h0, rfl⟩, ⟨h1, rfl⟩, ⟨h2, rfl, rfl, rfl, rfl, rfl, rfl, rfl⟩, ⟨h3, rfl⟩, ⟨h4, rfl⟩, ⟨h5, rfl, rfl⟩,
    ⟨h6, rfl, rfl, rfl, rfl, rfl⟩]

/-- The operands and the `OP` code determine the branch and its answer. -/
theorem decodeOp_of_operandsFrom {cmd : Command} {i : Instr} (hop : cmd.op = opOf i) (h : OperandsFrom cmd i) :
    decodeOp cmd = .legal i := by
  cases i with
  | decodeTemp | unpackCfg | enterShdn | exitShdn =>
    obtain rfl := h
    simp [decodeOp, hop, opOf]
  | packCfg =>
    obtain ⟨rfl, rfl, rfl, rfl, rfl, rfl, rfl⟩ := h
    simp [decodeOp, hop, opOf]
  | setRes =>
    obtain ⟨rfl, rfl⟩ := h
    simp [decodeOp, hop, opOf]
  | setAlert =>
    obtain ⟨rfl, rfl, rfl, rfl, rfl⟩ := h
    simp [decodeOp, hop, opOf]

/-- A word decodes to a command exactly when its `X` is 0 and its `OP` and operand fields are the command's. -/
theorem decode_eq_legal_iff (cmd : Command) (i : Instr) :
    decode cmd = .legal i ↔ cmd.x = 0 ∧ cmd.op = opOf i ∧ OperandsFrom cmd i := by
  unfold decode
  by_cases hx : cmd.x = 0
  · rw [if_pos hx, and_iff_right hx]
    exact ⟨operandsFrom_of_decodeOp, fun ⟨hop, h⟩ => decodeOp_of_operandsFrom hop h⟩
  · rw [if_neg hx]
    exact iff_of_false nofun fun h => hx h.1

/-! ### The encoder (R48) -/

theorem ofCode_code (r : ResMode) : ResMode.ofCode r.code = r := by
  obtain ⟨-, hmodes, -⟩ := Proofs.resolutionCodesAreAllLegal
  exact hmodes r

theorem code_ofCode (c : BitVec 2) : (ResMode.ofCode c).code = c := by
  obtain ⟨hcodes, -⟩ := Proofs.resolutionCodesAreAllLegal
  exact hcodes c

theorem encode_x (i : Instr) : (encode i).x = 0 := by
  cases i <;> exact commandOf_x ..

theorem encode_op (i : Instr) : (encode i).op = opOf i := by
  cases i <;> exact commandOf_op ..

theorem operandsFrom_encode (i : Instr) : OperandsFrom (encode i) i := by
  cases i <;>
    simp [encode, OperandsFrom, commandOf_d, commandOf_s, commandOf_e, commandOf_m, commandOf_p, commandOf_l,
      commandOf_r, ofCode_code]

theorem decode_encode (i : Instr) : decode (encode i) = .legal i :=
  (decode_eq_legal_iff _ _).mpr ⟨encode_x i, encode_op i, operandsFrom_encode i⟩

theorem encode_injective : Function.Injective encode := fun i j h =>
  Decoded.legal.inj ((decode_encode i).symm.trans (h ▸ decode_encode j))

/-- Encoding what a word decodes to keeps its `X`, its `OP` and the fields the operation uses, and no other. -/
theorem encode_of_decode {cmd : Command} {i : Instr} (h : decode cmd = .legal i) :
    encode i = cmd &&& (opcodeMask ||| usedFields (opOf i).toNat) := by
  obtain ⟨hx, hop, hfrom⟩ := (decode_eq_legal_iff cmd i).mp h
  rw [← commandOf_fields hx, hop]
  -- The operation's mask, by which of R, L, P, M, E and S it keeps, in this order.
  have keep := commandOf_and_wholeFields cmd.r cmd.l cmd.p cmd.m cmd.e cmd.s (opOf i) cmd.d
  symm
  cases i with
  | decodeTemp | unpackCfg | enterShdn | exitShdn =>
    obtain rfl := hfrom
    exact keep false false false false false false
  | packCfg =>
    obtain ⟨rfl, rfl, rfl, rfl, rfl, rfl, rfl⟩ := hfrom
    rw [encode, code_ofCode]
    exact keep true true true true true true
  | setRes =>
    obtain ⟨rfl, rfl⟩ := hfrom
    rw [encode, code_ofCode]
    exact keep true false false false false false
  | setAlert =>
    obtain ⟨rfl, rfl, rfl, rfl, rfl⟩ := hfrom
    exact keep false true true true true false

end Sys2Proof.Machine
end

section
/-! PROOFS. The assembler (30_encoding.md R48, R49): which lines assemble, and the fields of their words as the numbers
written. -/

namespace Sys2Proof.Machine

open Sys2Proof.Claims

/-! ### Which lines assemble -/

theorem assemble_eq_some_iff (a : AsmLine) (w : Command) :
    assemble a = some w ↔ a.wellFormed = true ∧ encode (instrOfLine a) = w := by
  simp only [assemble, Option.ite_none_right_eq_some, Option.some.injEq]

/-- A line whose range is `inRange` assembles exactly there, and its word has what its command's word has there. -/
theorem assemble_in_range {a : AsmLine} {inRange : Prop} {has : Command → Prop}
    (hrange : a.wellFormed = true ↔ inRange) (hword : inRange → has (encode (instrOfLine a))) :
    (inRange → ∃ w, assemble a = some w ∧ has w) ∧ (¬ inRange → assemble a = none) := by
  rw [← hrange] at hword ⊢
  exact ⟨fun h => ⟨_, if_pos h, hword h⟩, fun h => if_neg h⟩

section
variable (d s e m p l r b0 b1 : Nat)

theorem wellFormed_packCfg : (AsmLine.packCfg d s e m p l r).wellFormed = true ↔
    d < 65536 ∧ s < 2 ∧ e < 2 ∧ m < 2 ∧ p < 2 ∧ l < 2 ∧ r < 4 := by
  simp [AsmLine.wellFormed, AsmLine.d16, AsmLine.flag, AsmLine.res, and_assoc]

theorem wellFormed_setRes : (AsmLine.setRes d r).wellFormed = true ↔ d < 65536 ∧ r < 4 := by
  simp [AsmLine.wellFormed, AsmLine.d16, AsmLine.res]

theorem wellFormed_setAlert : (AsmLine.setAlert d e m p l).wellFormed = true ↔
    d < 65536 ∧ e < 2 ∧ m < 2 ∧ p < 2 ∧ l < 2 := by
  simp [AsmLine.wellFormed, AsmLine.d16, AsmLine.flag, and_assoc]

theorem wellFormed_decodeBytes : (AsmLine.decodeBytes b0 b1).wellFormed = true ↔ b0 < 256 ∧ b1 < 256 := by
  simp [AsmLine.wellFormed, AsmLine.byte]

end

/-! ### The numbers written -/

theorem word_toNat {d : Nat} (h : d < 65536) : (BitVec.ofNat 16 d).toNat = d := by
  rw [BitVec.toNat_ofNat, Nat.mod_eq_of_lt h]

theorem resCode_toNat {r : Nat} (h : r < 4) : (ResMode.ofCode (BitVec.ofNat 2 r)).code.toNat = r := by
  rw [code_ofCode, BitVec.toNat_ofNat, Nat.mod_eq_of_lt h]

theorem flag_toNat {n : Nat} (h : n < 2) : (n == 1).toNat = n := by
  interval_cases n <;> rfl

/-- The two bytes of DECODE_BYTES are one big-endian data word (R49). -/
theorem bytes_toNat {b0 b1 : Nat} (h0 : b0 < 256) (h1 : b1 < 256) :
    (BitVec.ofNat 8 b0 ++ BitVec.ofNat 8 b1 : Word).toNat = b0 * 256 + b1 := by
  rw [busWord_toNat, BitVec.toNat_ofNat, BitVec.toNat_ofNat, Nat.mod_eq_of_lt h0, Nat.mod_eq_of_lt h1]

theorem bytes_eq_word {b0 b1 : Nat} (h0 : b0 < 256) (h1 : b1 < 256) :
    BitVec.ofNat 8 b0 ++ BitVec.ofNat 8 b1 = BitVec.ofNat 16 (b0 * 256 + b1) :=
  BitVec.eq_of_toNat_eq ((bytes_toNat h0 h1).trans (word_toNat (by omega)).symm)

/-- A word laid out by R37 has the numbers its fields stand for. -/
theorem wordHas_commandOf {rc : BitVec 2} {lf pf mf ef sf : Bool} {opc : BitVec 3} {dw : Word}
    {op d s e m p l r : Nat} (hop : opc.toNat = op) (hd : dw.toNat = d) (hs : sf.toNat = s) (he : ef.toNat = e)
    (hm : mf.toNat = m) (hp : pf.toNat = p) (hl : lf.toNat = l) (hr : rc.toNat = r) :
    wordHas (commandOf rc lf pf mf ef sf opc dw) op d s e m p l r := by
  subst hop hd hs he hm hp hl hr
  exact ⟨congrArg _ (commandOf_op ..), congrArg _ (commandOf_d ..), congrArg _ (commandOf_s ..),
    congrArg _ (commandOf_e ..), congrArg _ (commandOf_m ..), congrArg _ (commandOf_p ..), congrArg _ (commandOf_l ..),
    congrArg _ (commandOf_r ..), commandOf_x ..⟩

/-- The word of a line that names `d` alone. -/
theorem wordHas_data (op : BitVec 3) {w : Word} {d : Nat} (h : w.toNat = d) :
    wordHas (commandOf 0 false false false false false op w) op.toNat d 0 0 0 0 0 0 :=
  wordHas_commandOf rfl h rfl rfl rfl rfl rfl rfl

/-- The four operations whose line is a `d16` and no more. -/
theorem assemble_data_in_range {a : AsmLine} {d : Nat} (op : BitVec 3) (ha : a.wellFormed = AsmLine.d16 d)
    (hencode : encode (instrOfLine a) = commandOf 0 false false false false false op (BitVec.ofNat 16 d)) :
    (d < 65536 → ∃ w, assemble a = some w ∧ wordHas w op.toNat d 0 0 0 0 0 0) ∧
    (¬ d < 65536 → assemble a = none) := by
  refine assemble_in_range (by rw [ha, AsmLine.d16, decide_eq_true_iff]) fun hd => ?_
  rw [hencode]
  exact wordHas_data op (word_toNat hd)

end Sys2Proof.Machine
end

section
/-! PROOFS. The statements about the encoding, the assembler and the one fault. -/

namespace Sys2Proof.Proofs

open Sys2Proof.Machine Sys2Proof.Claims

/-- Settles O22: the encoded word has `X` 0, the command's `OP` and its operands, which is all the decoder asks. -/
theorem decodeOfEncode : Obligations.DecodeOfEncode := decode_encode

/-- Settles O20: the rows of the table are the legal words, whose `OP` is that of their command. -/
theorem decodingIsTotalByMask : Obligations.DecodingIsTotalByMask := by
  intro cmd
  rw [exists_legal_iff, exists_inRow_iff, not_not, decode_eq_illegalCommand_iff]
  refine ⟨Iff.rfl, fun op hlt hrow => ?_, id, Iff.rfl⟩
  obtain ⟨i, hd⟩ := (exists_legal_iff cmd).mpr ((exists_inRow_iff cmd).mp ⟨op, hlt, hrow⟩)
  obtain ⟨-, hop, -⟩ := (decode_eq_legal_iff cmd i).mp hd
  obtain ⟨-, hrowOp⟩ := (inRow_iff hlt cmd).mp hrow
  exact ⟨i, hd, hop ▸ hrowOp⟩

/-- Settles O23: by the operation, the mask keeping the fields its command takes. -/
theorem encodeOfDecode : Obligations.EncodeOfDecode := fun _ _ => encode_of_decode

/-- Settles O21: encoding the two commands gives the same word, so the two words decode to one command. -/
theorem ignoredFieldsDoNotMatter : Obligations.IgnoredFieldsDoNotMatter := by
  intro op c c' s hlt hrow hrow' hused
  obtain ⟨-, row, -, -⟩ := decodingIsTotalByMask c
  obtain ⟨-, row', -, -⟩ := decodingIsTotalByMask c'
  obtain ⟨i, hd, hop⟩ := row op hlt hrow
  obtain ⟨i', hd', hop'⟩ := row' op hlt hrow'
  have hmasked : c &&& opcodeMask = c' &&& opcodeMask := hrow.trans hrow'.symm
  have hword : encode i = encode i' := by
    rw [encode_of_decode hd, encode_of_decode hd', hop, hop', BitVec.and_or_distrib_left, BitVec.and_or_distrib_left,
      hmasked, hused]
  obtain rfl := encode_injective hword
  exact ⟨portsOf s.layout i, presentCommand_of_legal hd s, presentCommand_of_legal hd' s⟩

/-- Settles O26, line by line: the range is the line's check, and each number comes back from its field. -/
theorem assemblerMakesLegalWords : Obligations.AssemblerMakesLegalWords := by
  refine ⟨fun d => ?_, fun d s e m p l r => ?_, fun d r => ?_, fun d e m p l => ?_, fun b0 b1 => ?_, fun a w h => ?_⟩
  · obtain ⟨some0, none0⟩ := assemble_data_in_range (a := .decodeTemp d) 0 rfl rfl
    obtain ⟨some1, none1⟩ := assemble_data_in_range (a := .unpackCfg d) 1 rfl rfl
    obtain ⟨some3, none3⟩ := assemble_data_in_range (a := .enterShdn d) 3 rfl rfl
    obtain ⟨some4, none4⟩ := assemble_data_in_range (a := .exitShdn d) 4 rfl rfl
    exact ⟨fun h => ⟨some0 h, some1 h, some3 h, some4 h⟩, fun h => ⟨none0 h, none1 h, none3 h, none4 h⟩⟩
  · refine assemble_in_range (wellFormed_packCfg d s e m p l r) fun ⟨hd, hs, he, hm, hp, hl, hr⟩ => ?_
    exact wordHas_commandOf rfl (word_toNat hd) (flag_toNat hs) (flag_toNat he) (flag_toNat hm) (flag_toNat hp)
      (flag_toNat hl) (resCode_toNat hr)
  · refine assemble_in_range (wellFormed_setRes d r) fun ⟨hd, hr⟩ => ?_
    exact wordHas_commandOf rfl (word_toNat hd) rfl rfl rfl rfl rfl (resCode_toNat hr)
  · refine assemble_in_range (wellFormed_setAlert d e m p l) fun ⟨hd, he, hm, hp, hl⟩ => ?_
    exact wordHas_commandOf rfl (word_toNat hd) rfl (flag_toNat he) (flag_toNat hm) (flag_toNat hp) (flag_toNat hl) rfl
  · exact assemble_in_range (wellFormed_decodeBytes b0 b1) fun ⟨h0, h1⟩ => wordHas_data 0 (bytes_toNat h0 h1)
  · obtain ⟨-, rfl⟩ := (assemble_eq_some_iff a w).mp h
    exact decode_encode _

/-- Settles O27: the two lines stand for the same command, the two bytes being its data word. -/
theorem decodeBytesIsBigEndian : Obligations.DecodeBytesIsBigEndian := by
  refine ⟨fun b0 b1 h0 h1 => ?_, by decide⟩
  have hor : b0 <<< 8 ||| b1 = b0 * 256 + b1 := by
    rw [← Nat.shiftLeft_add_eq_or_of_lt h1, Nat.shiftLeft_eq]
  have hlt : b0 * 256 + b1 < 65536 := by omega
  refine ⟨encode (.decodeTemp (BitVec.ofNat 16 (b0 * 256 + b1))), ?_, ?_, ?_⟩
  · rw [assemble_eq_some_iff, wellFormed_decodeBytes, instrOfLine, bytes_eq_word h0 h1]
    exact ⟨⟨h0, h1⟩, rfl⟩
  · rw [hor, assemble_eq_some_iff]
    exact ⟨decide_eq_true hlt, rfl⟩
  · rw [encode, commandOf_data_toNat, word_toNat hlt]

/-- Settles O28: the illegal words raise the fault, and every other decodes to a command, which completes. -/
theorem illegalCommandFaults : Obligations.IllegalCommandFaults := by
  intro s cmd rest hpending
  rw [step_cons hpending]
  refine ⟨fun hill => ?_, fun hlegal => ?_⟩
  · exact presentCommand_of_illegal ((decode_eq_illegalCommand_iff cmd).mpr hill) _
  · obtain ⟨i, hd⟩ := (exists_legal_iff cmd).mpr hlegal
    obtain ⟨hok, -⟩ := portsOf_undriven s.layout i
    exact ⟨portsOf s.layout i, hok, presentCommand_of_legal hd _⟩

/-- Settles O24: the eight words, each run through the decoder. -/
theorem listedWordsDecode : Obligations.ListedWordsDecode := by
  unfold Obligations.ListedWordsDecode
  decide

end Sys2Proof.Proofs
end

section
/-! PROOFS. The temperature decoder (40_temperature_decode.md): its ports as numbers (R51, R53), the bits of the word
they depend on (R54, R57), and the value of a word (R52, R55). -/

namespace Sys2Proof.Machine

open Sys2Proof.Claims

/-! ### The words of a row (30_encoding.md R45) -/

/-- A word of a row decodes to the command of that row whose operands it carries. -/
theorem decode_of_inRow {cmd : Command} {i : Instr} (hrow : inRow (opOf i).toNat cmd) (hfrom : OperandsFrom cmd i) :
    decode cmd = .legal i := by
  have hlt : (opOf i).toNat < 7 := by cases i <;> simp [opOf]
  obtain ⟨hx, hop⟩ := (inRow_iff hlt cmd).mp hrow
  exact (decode_eq_legal_iff cmd i).mpr ⟨hx, BitVec.eq_of_toNat_eq hop, hfrom⟩

/-! ### The ports as numbers (R51) -/

theorem exec_decodeTemp (d : Word) (s : State) :
    exec (.decodeTemp d) s = .next { s with out := some (decodeTempPorts d) } :=
  exec_eq (.decodeTemp d) s

/-- The magnitude is whole degrees and sixteenths (R50). -/
theorem tempMagnitude_split (d : Word) :
    (tempMagnitude d).toNat = 16 * (tempDegrees d).toNat + (tempSixteenths d).toNat := by
  rw [tempMagnitude_toNat, tempDegrees_toNat, tempSixteenths_toNat]
  omega

/-- A byte widened to a word reads as the same number, and negated as its negative: neither reaches bit 15. -/
theorem sv_signedByte (neg : Bool) (b : Byte) :
    sv (if neg then - b.setWidth 16 else b.setWidth 16) = (if neg then -1 else 1) * (b.toNat : Int) := by
  have hb := b.isLt
  rw [sv_eq_of_toNat]
  cases neg with
  | false =>
    simp only [Bool.false_eq_true, if_false, BitVec.toNat_setWidth]
    omega
  | true =>
    simp only [if_true, BitVec.toNat_neg, BitVec.toNat_setWidth]
    omega

theorem sv_decodeTempPorts_dec (d : Word) :
    sv (decodeTempPorts d).dec = (if tempSign d then -1 else 1) * ((tempDegrees d).toNat : Int) :=
  sv_signedByte _ _

/-! ### The bits of the word the ports depend on (R54, R57) -/

/-- Bits 12:0 of a word are its sign and its magnitude. -/
theorem and_tempField (d : Word) : d &&& 0x1FFF#16 = 0#3 ++ BitVec.ofBool (tempSign d) ++ tempMagnitude d := by
  apply BitVec.eq_of_getLsbD_eq
  intro k hk
  simp only [tempSign, tempMagnitude, BitVec.getLsbD_and, BitVec.getLsbD_append, BitVec.getLsbD_extractLsb']
  interval_cases k <;> simp

theorem tempSign_and_tempField (d : Word) : tempSign (d &&& 0x1FFF#16) = tempSign d := by
  rw [tempSign, BitVec.getLsbD_and]
  exact Bool.and_true _

theorem tempMagnitude_and_tempField (d : Word) : tempMagnitude (d &&& 0x1FFF#16) = tempMagnitude d := by
  rw [tempMagnitude, BitVec.extractLsb'_and]
  exact BitVec.and_allOnes

/-- Two words give the same ports exactly when they agree on bits 12:0. -/
theorem decodeTempPorts_eq_iff (d d' : Word) :
    decodeTempPorts d = decodeTempPorts d' ↔ d &&& 0x1FFF#16 = d' &&& 0x1FFF#16 := by
  constructor
  · intro h
    have hsign : tempSign d = tempSign d' := congrArg Ports.neg h
    have hfrac : tempSixteenths d = tempSixteenths d' := congrArg Ports.frac h
    have hdec : sv (decodeTempPorts d).dec = sv (decodeTempPorts d').dec := by rw [h]
    have hdegrees : (tempDegrees d).toNat = (tempDegrees d').toNat := by
      rw [sv_decodeTempPorts_dec, sv_decodeTempPorts_dec, hsign] at hdec
      split_ifs at hdec <;> omega
    have hmagnitude : tempMagnitude d = tempMagnitude d' := by
      apply BitVec.eq_of_toNat_eq
      rw [tempMagnitude_split, tempMagnitude_split, hdegrees, hfrac]
    rw [and_tempField, and_tempField, hsign, hmagnitude]
  · intro h
    have hsign : tempSign d = tempSign d' := by
      rw [← tempSign_and_tempField d, h, tempSign_and_tempField]
    have hmagnitude : tempMagnitude d = tempMagnitude d' := by
      rw [← tempMagnitude_and_tempField d, h, tempMagnitude_and_tempField]
    simp only [decodeTempPorts, tempDegrees, tempSixteenths, hsign, hmagnitude]

/-- Whatever the sign, the number on the ports is 0 exactly for magnitude 0. -/
theorem decodeTempPorts_nonzero_iff (d : Word) :
    (decodeTempPorts d).dec ≠ 0 ∨ (decodeTempPorts d).frac ≠ 0 ↔ tempMagnitude d ≠ 0 := by
  rw [← not_and_or, not_iff_not]
  constructor
  · rintro ⟨hdec, hfrac⟩
    have hfrac : tempSixteenths d = 0 := hfrac
    have hsv : sv (decodeTempPorts d).dec = 0 := by rw [hdec]; rfl
    have hdegrees : (tempDegrees d).toNat = 0 := by
      rw [sv_decodeTempPorts_dec] at hsv
      split_ifs at hsv <;> omega
    apply BitVec.eq_of_toNat_eq
    rw [tempMagnitude_split, hdegrees, hfrac]
    rfl
  · intro h
    have hdegrees : tempDegrees d = 0 := by rw [tempDegrees, h]; rfl
    refine ⟨?_, ?_⟩
    · simp [decodeTempPorts, hdegrees]
    · simp [decodeTempPorts, tempSixteenths, h]

/-! ### The value of a word (R52, R55) -/

/-- `truncZero` is odd, as truncation toward zero is and the floor is not. -/
theorem truncZero_neg (q : Rat) : truncZero (-q) = -truncZero q := by
  unfold truncZero
  rcases lt_trichotomy q 0 with h | rfl | h
  · rw [if_pos (by linarith), if_neg (by linarith), neg_neg]
  · rfl
  · rw [if_neg (by linarith), if_pos h.le, neg_neg]

/-- On sixteenths, truncation of a number that is not negative is division by 16. -/
theorem truncZero_sixteenths (n : Nat) : truncZero ((n : Rat) / 16) = ((n / 16 : Nat) : Int) := by
  have hnonneg : (0 : Rat) ≤ n / 16 := by positivity
  have hfloor : ⌊(n : Rat) / 16⌋ = ((n / 16 : Nat) : Int) := Rat.floor_natCast_div_natCast n 16
  rw [truncZero, if_pos hnonneg]
  exact hfloor

/-- The value of a word is its magnitude in sixteenths, or the negative of that. -/
theorem tempValue_cases (d : Word) :
    (tempSign d = true ∧ tempValue d = -((tempMagnitude d).toNat / 16)) ∨
    (tempSign d = false ∧ tempValue d = (tempMagnitude d).toNat / 16) := by
  cases hs : tempSign d with
  | true =>
    refine .inl ⟨rfl, ?_⟩
    rw [tempValue, hs, signOf, if_pos rfl]
    ring
  | false =>
    refine .inr ⟨rfl, ?_⟩
    rw [tempValue, hs, signOf, if_neg Bool.false_ne_true, one_mul]

theorem tempValue_eq_zero_iff (d : Word) : tempValue d = 0 ↔ tempMagnitude d = 0 := by
  have hzero : tempMagnitude d = 0 ↔ (tempMagnitude d).toNat = 0 := BitVec.toNat_inj.symm
  rw [hzero]
  obtain ⟨-, hv⟩ | ⟨-, hv⟩ := tempValue_cases d <;> simp [hv]

theorem tempValue_neg_iff (d : Word) : tempValue d < 0 ↔ tempSign d = true ∧ tempMagnitude d ≠ 0 := by
  rw [Ne, ← tempValue_eq_zero_iff]
  have hnonneg : (0 : Rat) ≤ (tempMagnitude d).toNat / 16 := by positivity
  obtain ⟨hs, hv⟩ | ⟨hs, hv⟩ := tempValue_cases d
  · have hle : tempValue d ≤ 0 := by rw [hv]; exact neg_nonpos.mpr hnonneg
    rw [and_iff_right hs]
    exact hle.lt_iff_ne
  · rw [hs, hv]
    exact iff_of_false hnonneg.not_gt fun h => Bool.false_ne_true h.1

/-- The ports show the value: `dec` whole degrees and `frac` sixteenths, both with the sign (R52). -/
theorem tempValue_eq_ports (d : Word) :
    tempValue d = sv (decodeTempPorts d).dec + signOf (tempSign d) * (tempSixteenths d).toNat / 16 := by
  rw [sv_decodeTempPorts_dec, tempValue, tempMagnitude_split, signOf]
  split_ifs <;> push_cast <;> ring

/-- `dec` is the value truncated toward zero (R52). -/
theorem truncZero_tempValue (d : Word) : truncZero (tempValue d) = sv (decodeTempPorts d).dec := by
  have hdegrees : (tempMagnitude d).toNat / 16 = (tempDegrees d).toNat := by
    rw [tempMagnitude_toNat, tempDegrees_toNat]
  rw [sv_decodeTempPorts_dec]
  obtain ⟨hs, hv⟩ | ⟨hs, hv⟩ := tempValue_cases d
  · rw [hv, hs, truncZero_neg, truncZero_sixteenths, hdegrees, if_pos rfl, neg_one_mul]
  · rw [hv, hs, truncZero_sixteenths, hdegrees, if_neg Bool.false_ne_true, one_mul]

/-- The value is an integer of at most 12 bits and a sign, over 16 (R52). -/
theorem exists_mantissa_tempValue (d : Word) :
    ∃ mant : Int, -(2 : Int) ^ 12 < mant ∧ mant < 2 ^ 12 ∧ tempValue d = (mant : Rat) / 2 ^ 4 := by
  have hlt := (tempMagnitude d).isLt
  obtain ⟨-, hv⟩ | ⟨-, hv⟩ := tempValue_cases d
  · refine ⟨-(tempMagnitude d).toNat, by omega, by omega, ?_⟩
    rw [hv]
    push_cast
    ring
  · refine ⟨(tempMagnitude d).toNat, by omega, by omega, ?_⟩
    rw [hv]
    norm_num

end Sys2Proof.Machine
end

section
/-! PROOFS. The statements about the temperature decoder. -/

namespace Sys2Proof.Proofs

open Sys2Proof.Machine Sys2Proof.Claims

/-- Settles O1: a word of row 0 carries DECODE_TEMP of its `D`, and each port is the number its rule gives. -/
theorem decodeTempSplitsSignMagnitude : Obligations.DecodeTempSplitsSignMagnitude := by
  refine ⟨fun cmd hrow => decode_of_inRow (i := .decodeTemp cmd.d) hrow rfl, fun d s =>
    ⟨decodeTempPorts d, exec_decodeTemp d s, rfl, rfl, ?_, tempSixteenths_toNat d,
      rfl, rfl, rfl, rfl, rfl, rfl, rfl⟩⟩
  rw [sv_decodeTempPorts_dec, tempDegrees_toNat]
  rfl

/-- Settles O8: the value is the signed magnitude over 16, so the ports split it and `dec` truncates it. -/
theorem decodeTempAgreesWithValue : Obligations.DecodeTempAgreesWithValue := by
  intro d s
  refine ⟨decodeTempPorts d, exec_decodeTemp d s, ?_, tempValue_eq_ports d, fun hne => ?_,
    (truncZero_tempValue d).symm, exists_mantissa_tempValue d⟩
  · rw [← tempMagnitude_toNat]
    rfl
  · rw [tempValue_neg_iff, Ne, ← tempValue_eq_zero_iff, and_iff_left hne]
    rfl

/-- Settles O9: the whole degrees are a byte, with the sign that `neg` shows. -/
theorem decodeTempOutputsInRange : Obligations.DecodeTempOutputsInRange := by
  intro d s
  have hneg : (decodeTempPorts d).neg = tempSign d := rfl
  have hdegrees := (tempDegrees d).isLt
  have hfrac : (decodeTempPorts d).frac.toNat ≤ 15 := Nat.le_of_lt_succ (decodeTempPorts d).frac.isLt
  refine ⟨decodeTempPorts d, exec_decodeTemp d s, ?_⟩
  rw [sv_decodeTempPorts_dec, hneg]
  cases tempSign d with
  | false =>
    rw [if_neg Bool.false_ne_true, one_mul]
    exact ⟨by omega, by omega, hfrac, fun _ => by omega, fun hdec => absurd hdec (by omega)⟩
  | true =>
    rw [if_pos rfl]
    exact ⟨by omega, by omega, hfrac, nofun, fun _ => rfl⟩

/-- Settles O10: masking bits 15:13 away twice is masking them once. -/
theorem decodeTempIgnoresTopBits : Obligations.DecodeTempIgnoresTopBits := by
  intro d s
  have hports : decodeTempPorts d = decodeTempPorts (d &&& 0x1FFF#16) := by
    rw [decodeTempPorts_eq_iff, BitVec.and_assoc, BitVec.and_self]
  refine ⟨decodeTempPorts d, exec_decodeTemp d s, ?_⟩
  rw [hports]
  exact exec_decodeTemp (d &&& 0x1FFF#16) s

/-- Settles O11: a negative zero has the ports of 0x1000, and the ports are 0 but for the sign as the magnitude is. -/
theorem negativeZeroKeepsSignBit : Obligations.NegativeZeroKeepsSignBit := by
  intro d s
  refine ⟨decodeTempPorts d, exec_decodeTemp d s, rfl, fun hzero => ?_, ?_⟩
  · have hports : decodeTempPorts d = decodeTempPorts 0x1000#16 := (decodeTempPorts_eq_iff _ _).mpr hzero
    have hmagnitude : tempMagnitude d = 0 := by
      rw [← tempMagnitude_and_tempField, hzero]
      rfl
    rw [hports]
    exact ⟨rfl, rfl, rfl, (tempValue_eq_zero_iff d).mpr hmagnitude⟩
  · rw [tempValue_neg_iff, decodeTempPorts_nonzero_iff]
    rfl

/-- Settles O12: the ports are a function of the word that tells words apart by bits 12:0; the two words near the top of
the range by evaluation. -/
theorem decodeTempReadsWordOnly : Obligations.DecodeTempReadsWordOnly := by
  refine ⟨fun d s t => ⟨decodeTempPorts d, exec_decodeTemp d s, exec_decodeTemp d t, fun d' h => ?_⟩,
    fun s => ⟨decodeTempPorts 0x0C80#16, decodeTempPorts 0x0FFF#16, exec_decodeTemp _ s, by decide, by decide,
      exec_decodeTemp _ s, by decide, by decide⟩⟩
  rw [exec_decodeTemp] at h
  have hports : some (decodeTempPorts d') = some (decodeTempPorts d) := congrArg State.out (Host.Outcome.next.inj h)
  exact (decodeTempPorts_eq_iff d' d).mp (Option.some.inj hports)

end Sys2Proof.Proofs
end

section
/-! PROOFS. The configuration word (41_config_pack.md): its accessors and the words of the writing operations bit by bit,
what each keeps of the word it is given, and the results of the packer's commands through `exec`. -/

namespace Sys2Proof.Machine

open Sys2Proof.Claims

/-! ### The words of a row (30_encoding.md R45) -/

/-- `decode_of_inRow` for a row given by the word that its masked words equal. -/
theorem decode_of_masked {cmd row : Command} {i : Instr} (op : Nat) (hmasked : cmd &&& opcodeMask = row)
    (hrow : row = BitVec.ofNat 32 op <<< 16) (hop : (opOf i).toNat = op) (hfrom : OperandsFrom cmd i) :
    decode cmd = .legal i := by
  subst hop
  exact decode_of_inRow (hmasked.trans hrow) hfrom

/-! ### One flag (R58) -/

/-- A word with a bit replaced is the word itself exactly when it held that bit. -/
theorem put1_eq_self_iff (w : Word) (pos : Fin 16) (b : Bool) : put1 w pos b = w ↔ get1 w pos = b := by
  constructor
  · intro h
    rw [get1, ← h, put1_bit, if_pos rfl]
  · rintro rfl
    apply BitVec.eq_of_getLsbD_eq
    intro k _
    rw [put1_bit]
    split_ifs with h
    · rw [h, get1]
    · rfl

@[simp] theorem put1_get1 (w : Word) (pos : Fin 16) : put1 w pos (get1 w pos) = w :=
  (put1_eq_self_iff w pos _).mpr rfl

@[simp] theorem get1_put1 (w : Word) (pos : Fin 16) (b : Bool) : get1 (put1 w pos b) pos = b := by
  rw [get1, put1_bit, if_pos rfl]

@[simp] theorem put1_put1 (w : Word) (pos : Fin 16) (b c : Bool) : put1 (put1 w pos b) pos c = put1 w pos c := by
  apply BitVec.eq_of_getLsbD_eq
  intro k _
  simp only [put1_bit]
  split_ifs <;> rfl

theorem put1_true (w : Word) (pos : Fin 16) : put1 w pos true = w ||| bitMask pos := by
  apply BitVec.eq_of_getLsbD_eq
  intro k _
  rw [put1_bit, BitVec.getLsbD_or, bitMask_bit]
  by_cases h : k = pos.val <;> simp [h]

theorem put1_false (w : Word) (pos : Fin 16) : put1 w pos false = w &&& ~~~ bitMask pos := by
  apply BitVec.eq_of_getLsbD_eq
  intro k hk
  rw [put1_bit, BitVec.getLsbD_and, BitVec.getLsbD_not, bitMask_bit]
  by_cases h : k = pos.val <;> simp [h, hk]

/-! ### The resolution code (R58) -/

theorem getRes_toNat (L : CfgLayout) (w : Word) :
    (getRes L w).toNat = (w.getLsbD L.pos.res.val).toNat + 2 * (w.getLsbD (L.pos.res.val + 1)).toNat := by
  have htwoBits : ∀ c : BitVec 2, c.toNat = (c.getLsbD 0).toNat + 2 * (c.getLsbD 1).toNat := by decide
  rw [htwoBits, getRes_bit, getRes_bit]
  rfl

@[simp] theorem putRes_getRes (L : CfgLayout) (w : Word) : putRes L w (getRes L w) = w := by
  apply BitVec.eq_of_getLsbD_eq
  intro k _
  rw [putRes_bit, getRes_bit, getRes_bit]
  split_ifs with h0 h1
  · simp [h0]
  · simp [h1]
  · rfl

@[simp] theorem putRes_putRes (L : CfgLayout) (w : Word) (r r' : BitVec 2) :
    putRes L (putRes L w r) r' = putRes L w r' := by
  apply BitVec.eq_of_getLsbD_eq
  intro k _
  simp only [putRes_bit]
  split_ifs <;> rfl

theorem get1_putRes {L : CfgLayout} {pos : Fin 16} (h0 : pos.val ≠ L.pos.res.val) (h1 : pos.val ≠ L.pos.res.val + 1)
    (w : Word) (r : BitVec 2) : get1 (putRes L w r) pos = get1 w pos := by
  rw [get1, putRes_bit, if_neg h0, if_neg h1, get1]

/-! ### The words of PACK_CFG and SET_ALERT (R60, R64)

Each is the same as writing its fields one after the other; since the fields do not overlap, the order is free. -/

theorem setAlertWord_eq_puts (L : CfgLayout) (d : Word) (e m p l : Bool) :
    setAlertWord L d e m p l =
      put1 (put1 (put1 (put1 d L.pos.asel l) L.pos.apol p) L.pos.amod m) L.pos.aen e := by
  obtain ⟨-, -, haen, hamod, hapol, -⟩ := layout_distinct L
  apply BitVec.eq_of_getLsbD_eq
  intro k hk
  simp only [setAlertWord, put1_bit, BitVec.getLsbD_or, BitVec.getLsbD_and, BitVec.getLsbD_not, mAlert_bit, flagAt_bit]
  grind

theorem packCfgWord_eq_puts (L : CfgLayout) (d : Word) (s e m p l : Bool) (r : ResMode) :
    packCfgWord L d s e m p l r = put1 (setAlertWord L (putRes L d r.code) e m p l) L.pos.shdn s := by
  have hdistinct := layout_distinct L
  apply BitVec.eq_of_getLsbD_eq
  intro k hk
  simp only [packCfgWord, setAlertWord_eq_puts, put1_bit, putRes_bit, BitVec.getLsbD_or, BitVec.getLsbD_and,
    BitVec.getLsbD_not, fieldMask_bit, flagAt_bit, resAt_bit, Positions.bits, List.mem_cons, List.not_mem_nil, or_false]
  grind

theorem setAlertWord_bit (L : CfgLayout) (d : Word) (e m p l : Bool) (k : Nat) :
    (setAlertWord L d e m p l).getLsbD k =
      if k = L.pos.aen.val then e
      else if k = L.pos.amod.val then m
      else if k = L.pos.apol.val then p
      else if k = L.pos.asel.val then l
      else d.getLsbD k := by
  simp only [setAlertWord_eq_puts, put1_bit]

theorem packCfgWord_bit (L : CfgLayout) (d : Word) (s e m p l : Bool) (r : ResMode) (k : Nat) :
    (packCfgWord L d s e m p l r).getLsbD k =
      if k = L.pos.shdn.val then s
      else if k = L.pos.aen.val then e
      else if k = L.pos.amod.val then m
      else if k = L.pos.apol.val then p
      else if k = L.pos.asel.val then l
      else if k = L.pos.res.val then r.code.getLsbD 0
      else if k = L.pos.res.val + 1 then r.code.getLsbD 1
      else d.getLsbD k := by
  simp only [packCfgWord_eq_puts, put1_bit, setAlertWord_bit, putRes_bit]

theorem setAlertWord_of_held (L : CfgLayout) (d : Word) :
    setAlertWord L d (get1 d L.pos.aen) (get1 d L.pos.amod) (get1 d L.pos.apol) (get1 d L.pos.asel) = d := by
  simp only [setAlertWord_eq_puts, put1_get1]

theorem packCfgWord_of_held (L : CfgLayout) (d : Word) :
    packCfgWord L d (get1 d L.pos.shdn) (get1 d L.pos.aen) (get1 d L.pos.amod) (get1 d L.pos.apol)
      (get1 d L.pos.asel) (ResMode.ofCode (getRes L d)) = d := by
  rw [packCfgWord_eq_puts, code_ofCode, putRes_getRes, setAlertWord_of_held, put1_get1]

theorem setAlertWord_setAlertWord (L : CfgLayout) (d : Word) (e m p l : Bool) :
    setAlertWord L (setAlertWord L d e m p l) e m p l = setAlertWord L d e m p l := by
  apply BitVec.eq_of_getLsbD_eq
  intro k _
  simp only [setAlertWord_bit]
  split_ifs <;> rfl

/-! ### What a written word keeps (R65) -/

theorem and_not_eq_of_bits {w d mask : Word} (h : ∀ k, mask.getLsbD k = false → w.getLsbD k = d.getLsbD k) :
    w &&& ~~~ mask = d &&& ~~~ mask := by
  apply BitVec.eq_of_getLsbD_eq
  intro k hk
  rw [BitVec.getLsbD_and, BitVec.getLsbD_and, BitVec.getLsbD_not]
  cases hm : mask.getLsbD k with
  | true => simp
  | false => rw [h k hm]

theorem put1_keeps (w : Word) (pos : Fin 16) (b : Bool) : put1 w pos b &&& ~~~ bitMask pos = w &&& ~~~ bitMask pos := by
  refine and_not_eq_of_bits fun k hk => ?_
  rw [bitMask_bit, decide_eq_false_iff_not] at hk
  rw [put1_bit, if_neg hk]

theorem putRes_keeps (L : CfgLayout) (w : Word) (r : BitVec 2) :
    putRes L w r &&& ~~~ mRes L = w &&& ~~~ mRes L := by
  refine and_not_eq_of_bits fun k hk => ?_
  simp only [mRes_bit, Bool.or_eq_false_iff, decide_eq_false_iff_not] at hk
  obtain ⟨h0, h1⟩ := hk
  rw [putRes_bit, if_neg h0, if_neg h1]

theorem setAlertWord_keeps (L : CfgLayout) (d : Word) (e m p l : Bool) :
    setAlertWord L d e m p l &&& ~~~ mAlert L = d &&& ~~~ mAlert L := by
  refine and_not_eq_of_bits fun k hk => ?_
  simp only [mAlert_bit, Bool.or_eq_false_iff, decide_eq_false_iff_not] at hk
  obtain ⟨⟨⟨haen, hamod⟩, hapol⟩, hasel⟩ := hk
  rw [setAlertWord_bit, if_neg haen, if_neg hamod, if_neg hapol, if_neg hasel]

theorem packCfgWord_keeps (L : CfgLayout) (d : Word) (s e m p l : Bool) (r : ResMode) :
    packCfgWord L d s e m p l r &&& ~~~ fieldMask L = d &&& ~~~ fieldMask L := by
  refine and_not_eq_of_bits fun k hk => ?_
  simp only [fieldMask_bit, decide_eq_false_iff_not, Positions.bits, List.mem_cons, List.not_mem_nil, or_false,
    not_or] at hk
  obtain ⟨hshdn, haen, hamod, hapol, hasel, h0, h1⟩ := hk
  rw [packCfgWord_bit, if_neg hshdn, if_neg haen, if_neg hamod, if_neg hapol, if_neg hasel, if_neg h0, if_neg h1]

/-- R65 for the five writing operations at once. -/
theorem resultWord_keeps (L : CfgLayout) {i : Instr} (h : writesConfig i = true) :
    (portsOf L i).word &&& ~~~ writtenMask L i = dataOf i &&& ~~~ writtenMask L i := by
  cases i with
  | decodeTemp | unpackCfg => cases h
  | packCfg d s e m p l r => exact packCfgWord_keeps L d s e m p l r
  | enterShdn d => exact put1_keeps d L.pos.shdn true
  | exitShdn d => exact put1_keeps d L.pos.shdn false
  | setRes d r => exact putRes_keeps L d r.code
  | setAlert d e m p l => exact setAlertWord_keeps L d e m p l

/-! ### What UNPACK_CFG reads (R59, R66) -/

/-- The preserved bits play no part: the ports are those of the word with FIELD_MASK's bits alone. -/
theorem unpackCfgPorts_and_fieldMask (L : CfgLayout) (d : Word) :
    unpackCfgPorts L (d &&& fieldMask L) = unpackCfgPorts L d := by
  have hflag : ∀ pos, get1 (d &&& fieldMask L) pos = (get1 d pos && decide (pos.val ∈ L.pos.bits)) := by
    intro pos
    rw [get1, BitVec.getLsbD_and, fieldMask_bit, get1]
  have hres : getRes L (d &&& fieldMask L) = getRes L d := by
    apply BitVec.eq_of_getLsbD_eq
    intro k hk
    rw [getRes_bit, getRes_bit, BitVec.getLsbD_and, fieldMask_bit]
    interval_cases k <;> simp [Positions.bits]
  simp [unpackCfgPorts, hflag, hres, Positions.bits]

/-- Unpacking a packed word gives back the values packed, whatever the word they were packed into. -/
theorem unpackCfgPorts_packCfgWord (L : CfgLayout) (d : Word) (s e m p l : Bool) (r : ResMode) :
    unpackCfgPorts L (packCfgWord L d s e m p l r) =
      { portsZero with ok := true, s := s, e := e, m := m, p := p, l := l, r := r.code } := by
  have hdistinct := layout_distinct L
  have hres : getRes L (packCfgWord L d s e m p l r) = r.code := by
    apply BitVec.eq_of_getLsbD_eq
    intro k hk
    rw [getRes_bit, packCfgWord_bit]
    interval_cases k <;> grind
  simp only [unpackCfgPorts, hres, get1, packCfgWord_bit]
  grind

/-- Packing a word's own ports back into it changes nothing. -/
theorem packCfgWord_unpackCfgPorts (L : CfgLayout) (d : Word) :
    packCfgWord L d (unpackCfgPorts L d).s (unpackCfgPorts L d).e (unpackCfgPorts L d).m (unpackCfgPorts L d).p
      (unpackCfgPorts L d).l (ResMode.ofCode (unpackCfgPorts L d).r) = d :=
  packCfgWord_of_held L d

/-- SET_RES changes what UNPACK_CFG reads in the code alone. -/
theorem unpackCfgPorts_setResWord (L : CfgLayout) (d : Word) (r : ResMode) :
    unpackCfgPorts L (setResWord L d r) = { unpackCfgPorts L d with r := r.code } := by
  obtain ⟨-, ⟨-, -, -, -, hshdn⟩, ⟨-, -, -, haen⟩, ⟨-, -, hamod⟩, ⟨-, hapol⟩, hasel⟩ := layout_distinct L
  simp only [unpackCfgPorts, setResWord, getRes_putRes, get1_putRes hshdn.1 hshdn.2, get1_putRes haen.1 haen.2,
    get1_putRes hamod.1 hamod.2, get1_putRes hapol.1 hapol.2, get1_putRes hasel.1 hasel.2]

/-! ### The commands of the packer (R59 to R64) -/

/-- The ports of a writing operation show its word and 0 elsewhere (R15). -/
theorem portsOf_eq_onlyWord (L : CfgLayout) {i : Instr} (h : writesConfig i = true) :
    portsOf L i = onlyWord (portsOf L i).word := by
  obtain ⟨w, hports⟩ := portsOf_of_writesConfig L h
  rw [hports]
  rfl

/-- A writing command completes with its word on the ports and nothing else (R15, R31). -/
theorem exec_writing {i : Instr} (h : writesConfig i = true) (s : State) :
    exec i s = .next { s with out := some (onlyWord (portsOf s.layout i).word) } := by
  rw [← portsOf_eq_onlyWord s.layout h]
  exact exec_eq i s

theorem exec_unpackCfg (d : Word) (s : State) :
    exec (.unpackCfg d) s = .next { s with out := some (unpackCfgPorts s.layout d) } :=
  exec_eq (.unpackCfg d) s

theorem exec_packCfg (d : Word) (sh e m p l : Bool) (r : ResMode) (s : State) :
    exec (.packCfg d sh e m p l r) s =
      .next { s with out := some (onlyWord (packCfgWord s.layout d sh e m p l r)) } :=
  exec_writing (i := .packCfg d sh e m p l r) rfl s

theorem exec_enterShdn (d : Word) (s : State) :
    exec (.enterShdn d) s = .next { s with out := some (onlyWord (put1 d s.layout.pos.shdn true)) } :=
  exec_writing (i := .enterShdn d) rfl s

theorem exec_exitShdn (d : Word) (s : State) :
    exec (.exitShdn d) s = .next { s with out := some (onlyWord (put1 d s.layout.pos.shdn false)) } :=
  exec_writing (i := .exitShdn d) rfl s

theorem exec_setRes (d : Word) (r : ResMode) (s : State) :
    exec (.setRes d r) s = .next { s with out := some (onlyWord (putRes s.layout d r.code)) } :=
  exec_writing (i := .setRes d r) rfl s

theorem exec_setAlert (d : Word) (e m p l : Bool) (s : State) :
    exec (.setAlert d e m p l) s = .next { s with out := some (onlyWord (setAlertWord s.layout d e m p l)) } :=
  exec_writing (i := .setAlert d e m p l) rfl s

end Sys2Proof.Machine
end

section
/-! PROOFS. The statements about the configuration word: the packer's commands and their laws. -/

namespace Sys2Proof.Proofs

open Sys2Proof.Machine Sys2Proof.Claims

/-- Settles O14: by the accessors' bits. -/
theorem accessorsTouchOnlyTheirField : Obligations.AccessorsTouchOnlyTheirField := by
  refine fun L w => ⟨fun pos b => ⟨get1_put1 w pos b, put1_get1 w pos, rfl, fun k _ hk => ?_⟩,
    fun r => ⟨getRes_putRes L w r, putRes_getRes L w, getRes_toNat L w, fun k _ h0 h1 => ?_⟩⟩
  · rw [put1_bit, if_neg hk]
  · rw [putRes_bit, if_neg h0, if_neg h1]

/-- Settles O2: the ports are those of the word's field bits alone, so two words with the same field bits share them. -/
theorem unpackCfgReadsEveryField : Obligations.UnpackCfgReadsEveryField := by
  refine ⟨fun cmd hrow => decode_of_masked (i := .unpackCfg cmd.d) 1 hrow (by decide) rfl rfl, fun d s =>
    ⟨unpackCfgPorts s.layout d, exec_unpackCfg d s, rfl, rfl, rfl, rfl, rfl, rfl, getRes_toNat s.layout d,
      rfl, rfl, rfl, rfl, fun d' hfields => ?_⟩⟩
  rw [exec_unpackCfg, ← unpackCfgPorts_and_fieldMask, hfields, unpackCfgPorts_and_fieldMask]

/-- Settles O3: the packed word bit by bit; repacking what is held writes each field back as it is. -/
theorem packCfgWritesFieldsKeepsPreserved : Obligations.PackCfgWritesFieldsKeepsPreserved := by
  refine ⟨fun cmd hrow => decode_of_masked (i := .packCfg cmd.d cmd.s cmd.e cmd.m cmd.p cmd.l (ResMode.ofCode cmd.r))
      2 hrow (by decide) rfl ⟨rfl, rfl, rfl, rfl, rfl, rfl, rfl⟩,
    fun d sh e m p l r s => ⟨packCfgWord s.layout d sh e m p l r, exec_packCfg d sh e m p l r s,
      fun k _ => packCfgWord_bit s.layout d sh e m p l r k, packCfgWord_keeps s.layout d sh e m p l r, ?_⟩⟩
  rintro rfl rfl rfl rfl rfl hres
  rw [← ofCode_code r, ← hres, packCfgWord_of_held]

/-- Settles O4: entering puts 1 at the shutdown bit, which leaves a word that holds 1 there as it is. -/
theorem enterShdnSetsOnlyShutdown : Obligations.EnterShdnSetsOnlyShutdown := by
  refine ⟨fun cmd hrow => decode_of_masked (i := .enterShdn cmd.d) 3 hrow (by decide) rfl rfl, fun d s =>
    ⟨put1 d s.layout.pos.shdn true, exec_enterShdn d s, fun k _ => put1_bit d s.layout.pos.shdn true k,
      put1_true d s.layout.pos.shdn, (put1_eq_self_iff d s.layout.pos.shdn true).mpr, ?_⟩⟩
  rw [exec_enterShdn, put1_put1]

/-- Settles O5: exiting puts 0 at the shutdown bit, whatever an entering put there before. -/
theorem exitShdnClearsOnlyShutdown : Obligations.ExitShdnClearsOnlyShutdown := by
  refine ⟨fun cmd hrow => decode_of_masked (i := .exitShdn cmd.d) 4 hrow (by decide) rfl rfl, fun d s => ?_⟩
  have hclear : d &&& ~~~ mShdn s.layout = put1 d s.layout.pos.shdn false := (put1_false d s.layout.pos.shdn).symm
  rw [hclear]
  refine ⟨put1 d s.layout.pos.shdn false, put1 d s.layout.pos.shdn true, exec_exitShdn d s,
    fun k _ => put1_bit d s.layout.pos.shdn false k, rfl, ?_, exec_enterShdn d s, ?_,
    put1_eq_self_iff d s.layout.pos.shdn false⟩
  · rw [exec_exitShdn, put1_put1]
  · rw [exec_exitShdn, put1_put1]

/-- Settles O6: the two bits of the code are put at `res`. -/
theorem setResWritesOnlyResolution : Obligations.SetResWritesOnlyResolution := by
  refine ⟨fun cmd hrow => decode_of_masked (i := .setRes cmd.d (ResMode.ofCode cmd.r))
      5 hrow (by decide) rfl ⟨rfl, rfl⟩,
    fun d r s => ⟨putRes s.layout d r.code, exec_setRes d r s,
      fun k _ => putRes_bit s.layout d r.code k, fun hres => ?_⟩⟩
  rw [← hres, putRes_getRes]

/-- Settles O7: the written word bit by bit; writing the flags held writes each back as it is. -/
theorem setAlertWritesOnlyAlertFlags : Obligations.SetAlertWritesOnlyAlertFlags := by
  refine ⟨fun cmd hrow => decode_of_masked (i := .setAlert cmd.d cmd.e cmd.m cmd.p cmd.l)
      6 hrow (by decide) rfl ⟨rfl, rfl, rfl, rfl, rfl⟩,
    fun d e m p l s => ⟨setAlertWord s.layout d e m p l, exec_setAlert d e m p l s,
      fun k _ => setAlertWord_bit s.layout d e m p l k, ?_⟩⟩
  rintro rfl rfl rfl rfl
  exact setAlertWord_of_held s.layout d

/-- Settles O15: every writing operation's word keeps the bits outside its mask. -/
theorem writesPreserveOtherBits : Obligations.WritesPreserveOtherBits :=
  ⟨fun _ s hwrites => ⟨_, exec_writing hwrites s, resultWord_keeps s.layout hwrites⟩,
    fun _ _ _ _ _ _ _ _ => ⟨rfl, rfl, rfl, rfl, rfl, rfl, rfl, rfl, rfl, rfl⟩⟩

/-- Settles O16: unpacking reads back what was written; packing what was read and writing a field twice change nothing. -/
theorem packUnpackInverseLaws : Obligations.PackUnpackInverseLaws := by
  intro s d
  have hunpack := unpackCfgPorts_packCfgWord s.layout d
  refine ⟨fun sh e m p l r => ⟨_, _, exec_packCfg d sh e m p l r s, exec_unpackCfg _ s, ?_⟩,
    ⟨_, exec_unpackCfg d s, ?_⟩,
    fun r => ⟨_, _, _, exec_setRes d r s, exec_unpackCfg d s, exec_unpackCfg _ s, ?_⟩,
    ⟨_, _, _, _, exec_enterShdn d s, exec_exitShdn _ s, ?_, exec_exitShdn d s, exec_enterShdn _ s, ?_⟩,
    fun r e m p l => ⟨_, _, _, _, exec_enterShdn d s, ?_, exec_exitShdn d s, ?_, exec_setRes d r s, ?_,
      exec_setAlert d e m p l s, ?_⟩⟩
  · rw [hunpack]
    exact ⟨rfl, rfl, rfl, rfl, rfl, rfl⟩
  · rw [exec_packCfg, packCfgWord_unpackCfgPorts]
  · have hset := unpackCfgPorts_setResWord s.layout d r
    rw [setResWord] at hset
    rw [hset]
    exact ⟨rfl, rfl, rfl, rfl, rfl, rfl⟩
  · rw [put1_put1]
    exact put1_eq_self_iff d s.layout.pos.shdn false
  · rw [put1_put1]
    exact put1_eq_self_iff d s.layout.pos.shdn true
  · rw [exec_enterShdn, put1_put1]
  · rw [exec_exitShdn, put1_put1]
  · rw [exec_setRes, putRes_putRes]
  · rw [exec_setAlert, setAlertWord_setAlertWord]

end Sys2Proof.Proofs
end

section
/-! PROOFS. One update of a register (70_reset_and_hazards.md R88, R95): what a write that meets the duty writes, and the
run that reads a register, presents a writing command on its word and writes the result back. -/

namespace Sys2Proof.Machine

/-! ### A host that goes on after an access that completes -/

theorem carryOn_of_completes {m : HostMove} {s t : State} (h : Completes s m t) : carryOn m s = t := by
  simp only [carryOn, perform_of_completes h]

section
variable {s : State} {device register : Nat} {n : SensorReg} (hn : resolve s.map device register = some n)
include hn

theorem carryOn_read : carryOn (.read device register (.bytes 2)) s =
    setBusError false (holdWord n (regGet s.sensor n) s) :=
  carryOn_of_completes (.read hn)

theorem carryOn_writeWord (w : Word) : carryOn (.write device register (bytesOfWord w) true) s =
    setBusError false (storeRegister n w s) :=
  carryOn_of_completes (.writeDone hn (operandOfBytes_bytesOfWord w))

end

end Sys2Proof.Machine

namespace Sys2Proof.Safety

open Sys2Proof.Machine

/-! ### A write that meets its duty -/

theorem moveMeetsDuty_write {s : State} {device register : Nat} {bytes : List Byte} {done : Bool}
    (h : moveMeetsDuty s (.write device register bytes done) = true) :
    ∃ n, resolve s.map device register = some n ∧ writesBackResult s n bytes = true := by
  cases hn : resolve s.map device register with
  | none => simp [moveMeetsDuty, hn] at h
  | some n => exact ⟨n, rfl, by simpa [moveMeetsDuty, hn] using h⟩

/-- Where the invariant holds, the bytes are the result of the last command, whose `D` the register still holds. -/
theorem writesBackResult_of_inv {s : State} {n : SensorReg} {bytes : List Byte} (hinv : Inv s)
    (h : writesBackResult s n bytes = true) :
    ∃ cmd i, s.cmd = some cmd ∧ decode cmd = .legal i ∧ writesConfig i = true ∧ takesWordOf i n = true ∧
      dataOf i = regGet s.sensor n ∧ bytes = bytesOfWord (portsOf s.layout i).word := by
  obtain ⟨hports, hcurrent⟩ := hinv
  obtain ⟨cmd, p, x, i, hcmd, hout, hheld, hd, hwrites, htakes, hfresh, hdata, hbytes⟩ := writesBackResult_spec h
  have hp : p = portsOf s.layout i := by
    rw [PortsShowCommand, hout, hcmd, Option.map_some, evaluate_of_legal _ hd] at hports
    exact Option.some.inj hports
  have hsensor : regGet s.sensor n = x.word := hcurrent n x.word (by rw [hheld, ← hfresh])
  exact ⟨cmd, i, hcmd, hd, hwrites, htakes, hdata.trans hsensor.symm, hp ▸ hbytes⟩

/-! ### The run of an update -/

/-- The host has read register `n` and presented the command `i`, whose result is on the ports. -/
def presentedOnRead (s : State) (n : SensorReg) (i : Instr) : State :=
  driveOutputs (portsOf s.layout i) (latchCommand (encode i) (setBusError false (holdWord n (regGet s.sensor n) s)))

/-- The moves of an update: read the register, present the command, write its word back. -/
def updateMoves (device register : Nat) (i : Instr) (w : Word) : List HostMove :=
  [.read device register (.bytes 2), .command (encode i), .write device register (bytesOfWord w) true]

section
variable {s : State} {device register : Nat} {n : SensorReg} (hn : resolve s.map device register = some n)
include hn

theorem carryOn_command_of_read (i : Instr) :
    carryOn (.command (encode i)) (carryOn (.read device register (.bytes 2)) s) = presentedOnRead s n i := by
  rw [carryOn_read hn, carryOn_command, evaluate_of_legal _ (decode_encode i)]
  rfl

/-- The run of an update gives the command's result and leaves the register with the word written. -/
theorem runMoves_updateMoves (i : Instr) (w : Word) :
    runMoves (updateMoves device register i w) s =
      ([portsOf s.layout i], setBusError false (storeRegister n w (presentedOnRead s n i))) := by
  have hwrite := carryOn_writeWord (s := presentedOnRead s n i) hn w
  simp only [updateMoves, runMoves, carryOn_command_of_read hn i, hwrite]
  rfl

end

/-- A command on the word just read may be presented when the register is of its kind. -/
theorem commandMeetsDuty_of_read {s : State} {n : SensorReg} {i : Instr} (hdata : dataOf i = regGet s.sensor n)
    (htakes : takesWordOf i n = true) :
    commandMeetsDuty (setBusError false (holdWord n (regGet s.sensor n) s)) (encode i) = true := by
  rw [commandMeetsDuty_iff]
  refine ⟨i, decode_encode i, (hasRead_iff _ i).mpr ⟨n, ⟨regGet s.sensor n, true⟩, htakes, ?_, hdata.symm,
    fun _ => rfl⟩⟩
  rw [setBusError_held, holdWord_held, regGet_regSet_same]

/-- Its word may be written back exactly when the register is of its kind. -/
theorem writesBackResult_presentedOnRead {s : State} {n : SensorReg} {i : Instr} (hwrites : writesConfig i = true)
    (hdata : dataOf i = regGet s.sensor n) :
    writesBackResult (presentedOnRead s n i) n (bytesOfWord (portsOf s.layout i).word) = takesWordOf i n := by
  obtain ⟨hok, -⟩ := portsOf_undriven s.layout i
  simp [writesBackResult, presentedOnRead, decode_encode, hwrites, hdata, hok]

theorem runMeetsDuty_updateMoves {s : State} {device register : Nat} {n : SensorReg} {i : Instr}
    (hn : resolve s.map device register = some n) (hwrites : writesConfig i = true)
    (hdata : dataOf i = regGet s.sensor n) :
    runMeetsDuty (updateMoves device register i (portsOf s.layout i).word) s = true ↔ takesWordOf i n = true := by
  have hbegins : beginsUpdate (encode i) = true := by rw [beginsUpdate, decode_encode]; exact hwrites
  have hturn : updatesInTurn false (updateMoves device register i (portsOf s.layout i).word) = true := by
    simp [updateMoves, updatesInTurn, hbegins]
  have hresolve : resolve (presentedOnRead s n i).map device register = some n := hn
  have hmoves : movesMeetDuty (updateMoves device register i (portsOf s.layout i).word) s =
      (commandMeetsDuty (carryOn (.read device register (.bytes 2)) s) (encode i) && takesWordOf i n) := by
    simp [updateMoves, movesMeetDuty, moveMeetsDuty, carryOn_command_of_read hn, hresolve,
      writesBackResult_presentedOnRead hwrites hdata]
  rw [runMeetsDuty, hturn, Bool.and_true, hmoves, carryOn_read hn, Bool.and_eq_true]
  exact and_iff_right_of_imp (commandMeetsDuty_of_read hdata)

end Sys2Proof.Safety
end

section
/-! PROOFS. The statements about one update of a register. -/

namespace Sys2Proof.Proofs

open Sys2Proof.Machine Sys2Proof.Safety Sys2Proof.Claims

/-- Settles O43: the bytes are the result of a command on the word the register still holds, so a write that is done
leaves the command's word there, and one that failed the old word. -/
theorem dutifulWriteKeepsOtherBits : Obligations.DutifulWriteKeepsOtherBits := by
  intro s t device register bytes done rest hinv hpending hduty hstep
  obtain ⟨n, hn, hback⟩ := moveMeetsDuty_write hduty
  obtain ⟨cmd, i, hcmd, hd, hwrites, htakes, hdata, rfl⟩ := writesBackResult_of_inv hinv hback
  refine ⟨n, cmd, i, hn, hcmd, hd, hwrites, (takesWordOf_writing hwrites).mp htakes, ?_⟩
  cases completes_of_step hpending hstep with
  | writeFailed => exact ⟨rfl, fun _ _ => rfl⟩
  | @writeDone _ _ _ n' w hn' hw =>
    obtain rfl : n = n' := Option.some.inj (hn.symm.trans hn')
    obtain rfl : (portsOf s.layout i).word = w := Option.some.inj ((operandOfBytes_bytesOfWord _).symm.trans hw)
    rw [setBusError_sensor, storeRegister_sensor, regGet_regSet_same, ← hdata]
    exact ⟨resultWord_keeps s.layout hwrites, fun k hk => regGet_regSet_other _ _ _ _ hk⟩

/-- Settles O44: the run's end state is the read, the command and the store one after the other, and its duties come down
to whether the register is of the command's kind. -/
theorem readModifyWriteUpdatesOnlyField : Obligations.ReadModifyWriteUpdatesOnlyField := by
  intro s device register n i hn hwrites hdata
  have hrun := runMoves_updateMoves hn i (portsOf s.layout i).word
  have hkeeps := resultWord_keeps s.layout hwrites
  rw [hdata] at hkeeps
  rw [updateMoves] at hrun
  refine ⟨(portsOf s.layout i).word, exec_writing hwrites s,
    (runMeetsDuty_updateMoves hn hwrites hdata).trans (takesWordOf_writing hwrites), ?_, _, rfl, ?_⟩
  · rw [hrun, ← portsOf_eq_onlyWord s.layout hwrites]
  · rw [hrun, setBusError_sensor, storeRegister_sensor, regGet_regSet_same]
    exact ⟨rfl, hkeeps, fun k hk => regGet_regSet_other _ _ _ _ hk⟩

end Sys2Proof.Proofs
end

section
/-! PROOFS. A host that goes on after commands (60_exceptions.md R69, R70, R75): the code and the ports of an illegal word,
and what the next command leaves of the one before it. -/

namespace Sys2Proof.Machine

theorem commandCode_of_illegal {cmd c : Command} (h : decode cmd = .illegalCommand c) : commandCode cmd = 1 := by
  simp only [commandCode, h, causeCode]

theorem carryOn_command_of_illegal {cmd c : Command} (h : decode cmd = .illegalCommand c) (s : State) :
    carryOn (.command cmd) s = afterIllegalCommand cmd s := by
  rw [carryOn_command, evaluate_of_illegal _ h, afterIllegalCommand_eq]

/-- A command replaces the word and the result of the command before it, legal or not, and nothing else of that one is
left (R9, R75). -/
theorem carryOn_command_carryOn_command (first second : Command) (s : State) :
    carryOn (.command second) (carryOn (.command first) s) = carryOn (.command second) s := by
  simp only [carryOn_command]
  rfl

end Sys2Proof.Machine
end

section
/-! PROOFS. The statement about what an illegal command leaves behind. -/

namespace Sys2Proof.Proofs

open Sys2Proof.Machine Sys2Proof.Claims

/-- Settles O29: the word decodes as illegal, so it has code 1 and drives 0 on every port; the next command overwrites the
input word and the ports, which is all the illegal one changed. -/
theorem illegalCommandLeavesNoTrace : Obligations.IllegalCommandLeavesNoTrace := by
  intro bad good s hill
  have hd : decode bad = .illegalCommand bad := (decode_eq_illegalCommand_iff bad).mpr hill
  refine ⟨commandCode_of_illegal hd, ?_, carryOn_command_carryOn_command bad good s⟩
  rw [carryOn_command_of_illegal hd]
  rfl

end Sys2Proof.Proofs
end

section
/-! PROOFS. Whole runs (70_reset_and_hazards.md R95, R96): what every move of a run leaves alone, where a word the host
holds at its end comes from, and the duties of its moves taken apart. -/

namespace Sys2Proof.Machine

/-! ### The register map over a run (20_memory.md R26) -/

theorem afterStop_map (m : HostMove) (s : State) : (afterStop m s).map = s.map := by
  cases m with
  | read device register reply =>
    simp only [afterStop]
    cases resolve s.map device register with
    | none => rfl
    | some n => cases reply <;> rfl
  | command | write | otherWrite | converts => rfl

@[simp] theorem carryOn_map (m : HostMove) (s : State) : (carryOn m s).map = s.map := by
  obtain hdone | ⟨-, heq⟩ := carryOn_cases m s
  · obtain ⟨-, hmap⟩ := completes_keeps_parameters hdone
    exact hmap
  · rw [heq, afterStop_map]

@[simp] theorem runMoves_map (ms : List HostMove) (s : State) : (runMoves ms s).2.map = s.map := by
  induction ms generalizing s with
  | nil => rfl
  | cons m ms ih => exact (ih (carryOn m s)).trans (carryOn_map m s)

/-! ### A host that goes on after an access (70_reset_and_hazards.md R90) -/

theorem carryOn_otherWrite (n : SensorReg) (w : Word) (s : State) :
    carryOn (.otherWrite n w) s = storeRegister n w s := rfl

section
variable {s : State} {device register : Nat} {n : SensorReg} (hn : resolve s.map device register = some n)
include hn

theorem carryOn_readFailed : carryOn (.read device register .failed) s = setBusError true (dropHeld n s) := by
  simp only [carryOn, perform, readRegister_failed hn, afterStop, hn]

theorem carryOn_writeFailed {bytes : List Byte} {w : Word} (hw : operandOfBytes bytes = some w) :
    carryOn (.write device register bytes false) s = setBusError true (overtakeRead n s) :=
  carryOn_of_completes (.writeFailed hn hw)

/-- A write of one word, done or failed, does the same to the host's record (R95; log entries 12 and 13). -/
theorem carryOn_write_held {bytes : List Byte} {w : Word} (hw : operandOfBytes bytes = some w) (done : Bool) :
    (carryOn (.write device register bytes done) s).held =
      regSet s.held n ((regGet s.held n).map Held.stale) := by
  cases done with
  | true => rw [carryOn_of_completes (.writeDone hn hw)]; rfl
  | false => rw [carryOn_writeFailed hn hw]; rfl

end

end Sys2Proof.Machine

namespace Sys2Proof.Safety

open Sys2Proof.Machine

/-! ### Where a word the host holds comes from (R87) -/

/-- A word the host holds after a run is one it held before (and just read now only if it was then), or a read of the
run found it in the register. -/
theorem runMoves_held {ms : List HostMove} {s : State} {n : SensorReg} {x : Held}
    (h : regGet (runMoves ms s).2.held n = some x) :
    (∃ y, regGet s.held n = some y ∧ y.word = x.word ∧ (x.fresh = true → y.fresh = true)) ∨
    (∃ before after device register, ms = before ++ .read device register (.bytes 2) :: after ∧
      resolve s.map device register = some n ∧ regGet (runMoves before s).2.sensor n = x.word) := by
  induction ms generalizing s with
  | nil => exact .inl ⟨x, h, rfl, id⟩
  | cons m ms ih =>
    obtain ⟨y, hy, hword, hfresh⟩ | ⟨before, after, device, register, rfl, hresolve, hsensor⟩ := ih h
    · obtain ⟨z, hz, hword', hfresh'⟩ | ⟨device, register, rfl, hresolve, hsensor⟩ := carryOn_held hy
      · exact .inl ⟨z, hz, hword'.trans hword, hfresh' ∘ hfresh⟩
      · exact .inr ⟨[], ms, device, register, rfl, hresolve, hsensor.trans hword⟩
    · rw [carryOn_map] at hresolve
      exact .inr ⟨m :: before, after, device, register, rfl, hresolve, hsensor⟩

/-! ### A register of which no word has just been read (R88) -/

/-- The host holds no word of `n`, or one that a write or a conversion has overtaken. -/
def NotJustRead (s : State) (n : SensorReg) : Prop := ∀ x, regGet s.held n = some x → x.fresh = false

theorem notJustRead_of_overtaken {s : State} {n : SensorReg} {v : PerReg (Option Held)} {x : Option Held}
    (hheld : s.held = regSet v n (x.map Held.stale)) : NotJustRead s n := by
  intro y hy
  rw [hheld, regGet_regSet_same, Option.map_eq_some_iff] at hy
  obtain ⟨z, -, rfl⟩ := hy
  exact Held.stale_fresh z

theorem notJustRead_of_none {s : State} {n : SensorReg} (h : regGet s.held n = none) : NotJustRead s n := by
  intro x hx
  rw [h] at hx
  cases hx

/-- Only a two-byte read of the register makes its word one just read again. -/
theorem notJustRead_runMoves {ms : List HostMove} {s : State} {n : SensorReg} (h : NotJustRead s n)
    (hreads : ∀ device register, .read device register (.bytes 2) ∈ ms → resolve s.map device register ≠ some n) :
    NotJustRead (runMoves ms s).2 n := by
  intro x hx
  obtain ⟨y, hy, -, hfresh⟩ | ⟨before, after, device, register, rfl, hresolve, -⟩ := runMoves_held hx
  · exact Bool.eq_false_of_not_eq_true fun hf => Bool.false_ne_true ((h y hy).symm.trans (hfresh hf))
  · exact absurd hresolve (hreads device register (by simp))

theorem writesBackResult_of_notJustRead {s : State} {n : SensorReg} (h : NotJustRead s n) (bytes : List Byte) :
    writesBackResult s n bytes = false := by
  refine Bool.eq_false_of_not_eq_true fun hback => ?_
  obtain ⟨-, -, x, -, -, -, hheld, -, -, -, hfresh, -, -⟩ := writesBackResult_spec hback
  exact Bool.false_ne_true ((h x hheld).symm.trans hfresh)

/-- The bytes of a write that meets its duty are one word. -/
theorem writesBackResult_operand {s : State} {n : SensorReg} {bytes : List Byte}
    (h : writesBackResult s n bytes = true) : ∃ w, operandOfBytes bytes = some w := by
  obtain ⟨-, p, -, -, -, -, -, -, -, -, -, -, rfl⟩ := writesBackResult_spec h
  exact ⟨p.word, operandOfBytes_bytesOfWord p.word⟩

theorem moveMeetsDuty_write_of_resolve {s : State} {device register : Nat} {n : SensorReg}
    (hn : resolve s.map device register = some n) (bytes : List Byte) (done : Bool) :
    moveMeetsDuty s (.write device register bytes done) = writesBackResult s n bytes := by
  simp only [moveMeetsDuty, hn]

/-! ### The duties of a run's moves (R95) -/

/-- In a run that meets its duties each move meets its own where it comes, and so do the moves after it. -/
theorem movesMeetDuty_append_cons {ms ms' : List HostMove} {m : HostMove} {s : State}
    (h : movesMeetDuty (ms ++ m :: ms') s = true) :
    moveMeetsDuty (runMoves ms s).2 m = true ∧ movesMeetDuty ms' (carryOn m (runMoves ms s).2) = true := by
  induction ms generalizing s with
  | nil => exact Bool.and_eq_true_iff.mp h
  | cons k ms ih =>
    obtain ⟨-, hrest⟩ := Bool.and_eq_true_iff.mp h
    exact ih hrest

theorem movesMeetDuty_of_runMeetsDuty {ms : List HostMove} {s : State} (h : runMeetsDuty ms s = true) :
    movesMeetDuty ms s = true := by
  obtain ⟨hmoves, -⟩ := Bool.and_eq_true_iff.mp h
  exact hmoves

/-- In turn, each update command is paid by one write, and an update owed at the start by one more. -/
theorem updatesInTurn_count {owed : Bool} {ms : List HostMove} (h : updatesInTurn owed ms = true) :
    (ms.filter isHostWrite).length = (ms.filter isUpdateCommand).length + owed.toNat := by
  induction ms generalizing owed with
  | nil =>
    simp only [updatesInTurn, Bool.not_eq_true'] at h
    subst h
    rfl
  | cons m ms ih =>
    cases m with
    | command cmd =>
      simp only [updatesInTurn, Bool.and_eq_true, Bool.not_eq_true'] at h
      obtain ⟨rfl, hrest⟩ := h
      have hcount := ih hrest
      cases hb : beginsUpdate cmd <;> simpa [isHostWrite, isUpdateCommand, hb] using hcount
    | read device register reply =>
      simp only [updatesInTurn, Bool.and_eq_true, Bool.not_eq_true'] at h
      obtain ⟨rfl, hrest⟩ := h
      exact ih hrest
    | write device register bytes done =>
      simp only [updatesInTurn, Bool.and_eq_true] at h
      obtain ⟨rfl, hrest⟩ := h
      exact congrArg (· + 1) (ih hrest)
    | otherWrite | converts => exact ih h

/-- After a write in a run that meets its duties, no further write to the register before a two-byte read of it. -/
theorem read_between_writes {before between after : List HostMove} {s : State}
    {device register device' register' : Nat} {n : SensorReg} {bytes bytes' : List Byte} {done done' : Bool}
    (hn : resolve s.map device register = some n) (hn' : resolve s.map device' register' = some n)
    (hduty : movesMeetDuty (before ++ .write device register bytes done :: between ++
      .write device' register' bytes' done' :: after) s = true) :
    ∃ device'' register'', .read device'' register'' (.bytes 2) ∈ between ∧
      resolve s.map device'' register'' = some n := by
  by_contra hnone
  push Not at hnone
  rw [List.append_assoc] at hduty
  obtain ⟨hfirst, hrest⟩ := movesMeetDuty_append_cons hduty
  obtain ⟨hsecond, -⟩ := movesMeetDuty_append_cons hrest
  have hmap : resolve (runMoves before s).2.map device register = some n := by rwa [runMoves_map]
  rw [moveMeetsDuty_write_of_resolve hmap] at hfirst
  rw [moveMeetsDuty_write_of_resolve (n := n) (by simpa using hn')] at hsecond
  obtain ⟨w, hw⟩ := writesBackResult_operand hfirst
  have hstale : NotJustRead (carryOn (.write device register bytes done) (runMoves before s).2) n :=
    notJustRead_of_overtaken (carryOn_write_held hmap hw done)
  have hstill := notJustRead_runMoves (ms := between) hstale (by simpa using hnone)
  exact Bool.false_ne_true ((writesBackResult_of_notJustRead hstill bytes').symm.trans hsecond)

/-- A second write to a register with no two-byte read before it breaks the duties, done or failed (R90, R95). -/
theorem secondWrite_breaks_duty {before between : List HostMove} {s : State} {device register : Nat} {n : SensorReg}
    (hn : resolve s.map device register = some n)
    (hreads : ∀ device' register', .read device' register' (.bytes 2) ∉ between)
    (bytes bytes' : List Byte) (done done' : Bool) :
    runMeetsDuty (before ++ .write device register bytes done :: between ++
      [.write device register bytes' done']) s = false := by
  refine Bool.eq_false_of_not_eq_true fun hduty => ?_
  obtain ⟨_, _, hread, -⟩ := read_between_writes hn hn (movesMeetDuty_of_runMeetsDuty hduty)
  exact hreads _ _ hread

/-! ### Commands that meet their duty (R87) -/

theorem commandMeetsDuty_eq_false_of_nothingHeld {s : State} (h : ∀ n, regGet s.held n = none) (cmd : Command) :
    commandMeetsDuty s cmd = false := by
  refine Bool.eq_false_of_not_eq_true fun hduty => ?_
  obtain ⟨i, -, hread⟩ := (commandMeetsDuty_iff s cmd).mp hduty
  obtain ⟨n, x, -, hheld, -, -⟩ := (hasRead_iff s i).mp hread
  rw [h n] at hheld
  cases hheld

/-- The registers of an operation's own kind, by its `OP` code (30_encoding.md R38, R39; 90_conflicts.md C4). -/
theorem takesWordOf_opOf {i : Instr} {n : SensorReg} (h : takesWordOf i n = true) :
    if opOf i = 0 then n = .temperature ∨ n = .upperBoundary ∨ n = .lowerBoundary
    else n = .configuration ∨ (n = .resolution ∧ (opOf i = 1 ∨ opOf i = 5)) := by
  cases i with
  | decodeTemp | unpackCfg | packCfg | enterShdn | exitShdn | setRes | setAlert =>
    simpa [takesWordOf, opOf, or_assoc] using h

end Sys2Proof.Safety
end

section
/-! PROOFS. The statements about accesses, hazards and the host's duties over whole runs. -/

namespace Sys2Proof.Proofs

open Sys2Proof.Machine Sys2Proof.Safety Sys2Proof.Claims

/-- Settles O39: the read and the write complete, and neither looks at the word's SHDN bit. -/
theorem accessWorksInShutdown : Obligations.AccessWorksInShutdown := by
  intro s device register n rest hn
  replace hn : resolve ({ s with pending := rest } : State).map device register = some n := hn
  refine ⟨fun hpending => ?_, fun b0 b1 hpending => ?_⟩
  · exact ⟨_, (step_cons hpending).trans (perform_of_completes (.read hn)), regGet_regSet_same _ _ _,
      fun k hk => regGet_regSet_other _ _ _ _ hk, rfl, rfl, rfl, rfl, rfl⟩
  · exact ⟨_, (step_cons hpending).trans (perform_of_completes (.writeDone hn rfl)), regGet_regSet_same _ _ _,
      fun k hk => regGet_regSet_other _ _ _ _ hk, notJustRead_of_overtaken rfl,
      fun k hk => regGet_regSet_other _ _ _ _ hk, rfl, rfl, rfl, rfl⟩

/-- Settles O40: a failed write only overtakes the word held of the register, and a failed read drops it. -/
theorem failedAccessChangesNoRegister : Obligations.FailedAccessChangesNoRegister := by
  intro s device register n b0 b1 hn
  refine ⟨⟨_, carryOn_writeFailed hn rfl, rfl, rfl, rfl, rfl, ?_, fun k hk => ?_, ?_⟩,
    ⟨_, carryOn_readFailed hn, rfl, rfl, rfl, rfl, ?_, fun k hk => ?_, ?_⟩⟩
  · rw [setBusError_held, overtakeRead_held, regGet_regSet_same, Option.map_map]
    rfl
  · exact regGet_regSet_other _ _ _ _ hk
  · exact writesBackResult_of_notJustRead (notJustRead_of_overtaken rfl)
  · exact regGet_regSet_same _ _ _
  · exact regGet_regSet_other _ _ _ _ hk
  · exact writesBackResult_of_notJustRead (notJustRead_of_none (regGet_regSet_same _ _ _))

/-- Settles O45: the host's write replaces whatever the other agent stored; the other agent's write has overtaken the
host's read, so the host's write fails its duty. -/
theorem lostUpdateIsARun : Obligations.LostUpdateIsARun := by
  intro s device register n i other hn hwrites hdata
  have hread := carryOn_command_of_read hn i
  have hwrite := carryOn_writeWord (s := storeRegister n other (presentedOnRead s n i)) hn (portsOf s.layout i).word
  have hrun := runMoves_updateMoves hn i (portsOf s.layout i).word
  rw [updateMoves] at hrun
  refine ⟨(portsOf s.layout i).word, exec_writing hwrites s, ?_, ?_⟩
  · rw [hrun]
    simp only [runMoves, hread, carryOn_otherWrite, hwrite, setBusError_sensor, storeRegister_sensor, regSet_regSet]
  · refine Bool.eq_false_of_not_eq_true fun hduty => ?_
    obtain ⟨hback, -⟩ := movesMeetDuty_append_cons (ms := [.read device register (.bytes 2), .command (encode i),
      .otherWrite n other]) (movesMeetDuty_of_runMeetsDuty hduty)
    simp only [runMoves, hread, carryOn_otherWrite] at hback
    have hstale : NotJustRead (storeRegister n other (presentedOnRead s n i)) n := notJustRead_of_overtaken rfl
    have hmap : resolve (storeRegister n other (presentedOnRead s n i)).map device register = some n := hn
    rw [moveMeetsDuty_write_of_resolve hmap, writesBackResult_of_notJustRead hstale] at hback
    cases hback

/-- Settles O46: a command that meets the duty is legal, so its result has `ok` = 1; and it needs a word held. -/
theorem dutifulCommandsAreAccepted : Obligations.DutifulCommandsAreAccepted := by
  refine ⟨fun s cmd rest hpending hduty => ?_, fun s cmd hnone => commandMeetsDuty_eq_false_of_nothingHeld hnone cmd⟩
  obtain ⟨i, hd, -⟩ := (commandMeetsDuty_iff s cmd).mp hduty
  obtain ⟨hok, -⟩ := portsOf_undriven s.layout i
  exact ⟨_, (step_cons hpending).trans (presentCommand_of_legal hd _), _, rfl, hok⟩

/-- Settles O47: updates and writes are paired by their turns, and a write overtakes the host's read of the register,
which only a two-byte read of it makes good. -/
theorem everyUpdateIsOneWrite : Obligations.EveryUpdateIsOneWrite := by
  refine ⟨fun ms s hduty => ?_, fun s device register n b0 b1 done ms hn hreads => ?_,
    fun before between after s device register device' register' n bytes bytes' done done' hn hn' hduty =>
      read_between_writes hn hn' (movesMeetDuty_of_runMeetsDuty hduty),
    fun s cmd device register n b0 b1 bytes done done' hn => ⟨?_, ?_, ?_⟩⟩
  · obtain ⟨-, hturn⟩ := Bool.and_eq_true_iff.mp hduty
    exact updatesInTurn_count hturn
  · have hstale : NotJustRead (carryOn (.write device register [b0, b1] done) s) n :=
      notJustRead_of_overtaken (carryOn_write_held hn rfl done)
    exact writesBackResult_of_notJustRead (notJustRead_runMoves hstale (by simpa using hreads))
  · exact secondWrite_breaks_duty (before := [.read device register (.bytes 2), .command cmd]) (between := []) hn
      (by simp) _ _ _ _
  · simp [runMeetsDuty, updatesInTurn]
  · exact secondWrite_breaks_duty (before := [.read device register (.bytes 2), .command cmd])
      (between := [.command cmd]) hn (by simp) _ _ _ _

/-- Settles O48: the word a dutiful command takes is one the host holds, and a host that held none at the start got it
from a read of the run. -/
theorem operandsAreReadFirst : Obligations.OperandsAreReadFirst := by
  refine ⟨fun ms ms' cmd i s hnone hduty hd => ?_, fun s device register hn => ?_⟩
  · obtain ⟨hcommand, -⟩ := movesMeetDuty_append_cons (movesMeetDuty_of_runMeetsDuty hduty)
    obtain ⟨j, hj, hread⟩ := (commandMeetsDuty_iff _ _).mp hcommand
    obtain rfl : i = j := Decoded.legal.inj (hd.symm.trans hj)
    obtain ⟨n, x, htakes, hheld, hword, -⟩ := (hasRead_iff _ _).mp hread
    obtain ⟨y, hy, -, -⟩ | ⟨before, after, device, register, rfl, hresolve, hsensor⟩ := runMoves_held hheld
    · rw [hnone n] at hy
      cases hy
    · exact ⟨before, after, device, register, n, rfl, hresolve, hsensor.trans hword, takesWordOf_opOf htakes⟩
  · have hcommand := commandMeetsDuty_of_read (s := s) (n := .configuration)
      (i := .unpackCfg (regGet s.sensor .configuration)) rfl rfl
    simp [runMeetsDuty, movesMeetDuty, moveMeetsDuty, updatesInTurn, beginsUpdate, decode_encode, writesConfig,
      carryOn_read hn, hcommand]

/-- Settles O41: a conversion stores its word in the temperature register, and besides only overtakes a read of it. -/
theorem conversionChangesTemperatureOnly : Obligations.ConversionChangesTemperatureOnly := by
  intro s w rest hpending
  exact ⟨_, (step_cons hpending).trans (perform_of_completes (.converts w)), rfl, rfl, rfl, rfl, rfl⟩

end Sys2Proof.Proofs
end
